-- ==== Sys2Proof/Word.lean ====
section
/-! DEFINITION. The words and index types of the ports and of the command word. Their widths are figures of 30_encoding.md
R79 to R81 and of 10_state.md R29, and each is the place that holds a field; how many bits of its place a field has is a
parameter of 00_scope.md R7 (Sys2Proof/Config.lean, log entry 8). -/

namespace Sys2Proof

/-- A 32-bit port or operand (30_encoding.md R79, R81), and the place of a field of `TS_W`, `STEPS_W`, `POS_W` or `SPR_W` bits. -/
abbrev Word := BitVec 32

/-- The motor id of a command, `w[59:58]` (30_encoding.md R80); `MID_W` bits of it name one of `N_MOTORS` motors. -/
abbrev MotorId := Fin 4

/-- A pin id of format A, 6 bits (30_encoding.md R81); `PIN_W` bits of it name one of `N_PINS` pins. -/
abbrev PinId := Fin 64

/-- An entry of the Sequence Table, one bit per coil output: bit `k-1` is the level of IN`k` (20_memory.md R64). -/
abbrev Pattern := BitVec 4

/-- A cursor into the Sequence Table, 3 bits (10_state.md R29). -/
abbrev Cursor := BitVec 3

/-- A command word (30_encoding.md R80). -/
abbrev CmdWord := BitVec 64

/-- The 33-bit pattern `tick ++ now_us` of the TICK ports (30_encoding.md R85). -/
abbrev TickWord := BitVec 33

end Sys2Proof
end

