-- ==== Sys2Proof/Config.lean ====
section
/-! DEFINITION. What is fixed for one machine: the parameters of 00_scope.md R7, each a field of one record under R7's name
with R7's value as its default, and the two free values. -/

namespace Sys2Proof

/-- The parameters of one machine (00_scope.md R7). State carries them in `State.cfg`, which no step writes, so that a
statement about every state holds for every value of them (log entries 3 and 8). -/
structure Config where
  /-- `REG_CAP`, the registry's capacity -/
  regCap : Nat := 3
  /-- `SEQ_LEN`, Sequence Table entries -/
  seqLen : Nat := 8
  /-- `PAT_W`, bits per pattern -/
  patW : Nat := 4
  /-- `N_MOTORS`; a command that names a motor at or above it is an illegal encoding (20_memory.md R69) -/
  nMotors : Nat := 4
  /-- `MID_W`, bits of a motor id -/
  midW : Nat := 2
  /-- `N_PINS`, logical output identifiers -/
  nPins : Nat := 64
  /-- `PIN_W`, bits of a pin id -/
  pinW : Nat := 6
  /-- `TS_W`, bits of `now_us`, `last`, `mindelay` -/
  tsW : Nat := 32
  /-- `STEPS_W`, bits of `remaining`, two's complement -/
  stepsW : Nat := 32
  /-- `POS_W`, bits of `pos`, two's complement -/
  posW : Nat := 32
  /-- `DEG_DEN`, position units per degree -/
  degDen : Nat := 1000000
  /-- `SPR_W`, bits of `spr`, unsigned -/
  sprW : Nat := 32
  /-- `SPR_DEN`, `spr` units per step -/
  sprDen : Nat := 1000
  /-- `SPR_MIN`, the least `spr` that ATTACH accepts (10_state.md R23; a parameter by 93_implementation_defined.md U2) -/
  sprMin : Nat := 1000
  /-- the Sequence Table `SEQ[0..SEQ_LEN-1]` (20_memory.md R62, R63), in one place for each value of a cursor -/
  seq : Vector Pattern 8
  /-- `MIN_DELAY_RESET` (OPEN, 92_eei_decisions.md D19) -/
  minDelayReset : Word
  /-- `PSAVE_RESET` (OPEN, D19) -/
  psaveReset : Bool
  /-- `INTR_RESET` (OPEN, D19) -/
  intrReset : Bool
  deriving DecidableEq, Repr

/-- `FULL_TURN = 360 * DEG_DEN`, the units in 360 degrees (00_scope.md R7). -/
def Config.fullTurn (c : Config) : Nat := 360 * c.degDen

/-- `TURN_NUM = FULL_TURN * SPR_DEN` (00_scope.md R7). -/
def Config.turnNum (c : Config) : Nat := c.fullTurn * c.sprDen

/-- The last place of the Sequence Table, `SEQ_LEN - 1`: 7 at R7's length (10_state.md R29). -/
def Config.lastPlace (c : Config) : Cursor := BitVec.ofNat 3 (c.seqLen - 1)

/-- The parameter values that the command word can carry and for which the rules' own bounds hold, R7's among them. -/
structure Config.Legal (c : Config) : Prop where
  /-- the table has an entry, and a 3-bit cursor reaches all of them (10_state.md R29, 20_memory.md R69) -/
  seqFits : 1 ≤ c.seqLen ∧ c.seqLen ≤ 2 ^ 3
  /-- there are four coil outputs (20_memory.md R64) -/
  patFits : c.patW ≤ 4
  /-- a motor id has as many bits as its space needs, in the two of a command (20_memory.md R69, 30_encoding.md R80) -/
  motorsFit : c.nMotors ≤ 2 ^ c.midW ∧ c.midW ≤ 2
  /-- a pin id has as many bits as its space needs, in the six of a command, and pin 0 exists (20_memory.md R69, 30_encoding.md R81) -/
  pinsFit : 1 ≤ c.nPins ∧ c.nPins ≤ 2 ^ c.pinW ∧ c.pinW ≤ 6
  /-- times fit the `now_us` port (30_encoding.md R79) -/
  timesFit : c.tsW ≤ 32
  /-- step counts fit the immediate, and hold 0, 1 and -1 (30_encoding.md R81, 41_step_sequencer.md R147) -/
  stepsFit : 2 ≤ c.stepsW ∧ c.stepsW ≤ 32
  /-- positions fit the immediate and the response (30_encoding.md R81, R97) -/
  positionsFit : 1 ≤ c.posW ∧ c.posW ≤ 32
  /-- `spr` fits its operand (30_encoding.md R81) -/
  sprFits : c.sprW ≤ 32
  /-- the position before its one correction fits its field (41_step_sequencer.md R141) -/
  turnFits : 2 * c.fullTurn < 2 ^ (c.posW - 1)
  /-- the step count of SETPOS fits its field (42_commands.md R163) -/
  countFits : 2 ^ (c.posW + c.sprW) ≤ 2 ^ (c.stepsW - 1) * c.turnNum
  /-- no step angle is 0 (10_state.md R24) -/
  angleFits : 2 ^ c.sprW ≤ c.turnNum
  /-- an accepted `spr` is at least one step per revolution, so the angle is at most a turn (10_state.md R23, R24) -/
  wholeStep : c.sprDen ≤ c.sprMin
  /-- the reset threshold fits its field (10_state.md R31) -/
  resetFits : c.minDelayReset.toNat < 2 ^ c.tsW

/-- The default Sequence Table of 20_memory.md R63: the half-step sequence, in the packed form of R64. -/
def defaultSeq : Vector Pattern 8 := #v[0x1#4, 0x3#4, 0x2#4, 0x6#4, 0x4#4, 0xC#4, 0x8#4, 0x9#4]

/-- The machine that `State.reset` shows: R7's numbers, the default table of 20_memory.md R63, and 0 for each OPEN parameter
(DESIGN CHOICE, unsafe: log entry 3; the spec gives the OPEN ones no value). -/
def Config.default : Config :=
  { seq := defaultSeq, minDelayReset := 0#32, psaveReset := false, intrReset := false }

/-- Free value (DESIGN CHOICE, safe: log entry 5): what the field `pos` holds after a completion whose exact sum or
difference does not fit the field's `POS_W` bits, a case in which 00_scope.md R12 gives no result. -/
opaque Config.posOutOfRange : Int → Word

/-- Free value (DESIGN CHOICE, safe: log entry 17): what the field `dps` holds after an ATTACH whose quotient does not fit
32 bits, a case in which 00_scope.md R12 and 40_registry_dispatch.md R113 give no result. -/
opaque Config.dpsOutOfRange : Nat → Word

end Sys2Proof
end

