-- ==== Sys2Proof/Syntax.lean ====
section
/-! DEFINITION. The twelve operations: the eleven commands of 30_encoding.md R84 and the TICK of R85. -/

namespace Sys2Proof

/-- One constructor per row of the opcode table, operands as 30_encoding.md R83 assembles them. The 32-bit immediates
stay bit patterns here; STEP and SETPOS read theirs as signed, SETSPD and ATTACH as unsigned. -/
inductive Instr where
  /-- ATTACH m, spr, p1, p2, p3, p4 (40_registry_dispatch.md R112) -/
  | attach (m : MotorId) (spr : Word) (p1 p2 p3 p4 : PinId)
  /-- DETACH m (40_registry_dispatch.md R116) -/
  | detach (m : MotorId)
  /-- PSAVE m, en (44_mode_flags.md R190) -/
  | psave (m : MotorId) (en : Bool)
  /-- INTR m, en (44_mode_flags.md R191) -/
  | intr (m : MotorId) (en : Bool)
  /-- SETPOS m, target (42_commands.md R163) -/
  | setpos (m : MotorId) (target : Word)
  /-- SETORG m (42_commands.md R165) -/
  | setorg (m : MotorId)
  /-- GETPOS m (42_commands.md R166) -/
  | getpos (m : MotorId)
  /-- SETSPD m, us (43_speed_governor.md R185) -/
  | setspd (m : MotorId) (us : Word)
  /-- STEP m, n (42_commands.md R160) -/
  | step (m : MotorId) (n : Word)
  /-- ISMOV m (42_commands.md R167) -/
  | ismov (m : MotorId)
  /-- STOP m (42_commands.md R168) -/
  | stop (m : MotorId)
  /-- TICK now (40_registry_dispatch.md R119) -/
  | tick (now : Word)
  deriving DecidableEq, Repr

/-- The mnemonic of the opcode table's row (30_encoding.md R84, R85). -/
def Instr.mnemonic : Instr → String
  | .attach .. => "ATTACH"
  | .detach _ => "DETACH"
  | .psave .. => "PSAVE"
  | .intr .. => "INTR"
  | .setpos .. => "SETPOS"
  | .setorg _ => "SETORG"
  | .getpos _ => "GETPOS"
  | .setspd .. => "SETSPD"
  | .step .. => "STEP"
  | .ismov _ => "ISMOV"
  | .stop _ => "STOP"
  | .tick _ => "TICK"

/-- The motor a command names (30_encoding.md R82: a command names exactly one); a TICK names none. -/
def Instr.motor? : Instr → Option MotorId
  | .attach m .. => some m
  | .detach m => some m
  | .psave m _ => some m
  | .intr m _ => some m
  | .setpos m _ => some m
  | .setorg m => some m
  | .getpos m => some m
  | .setspd m _ => some m
  | .step m _ => some m
  | .ismov m => some m
  | .stop m => some m
  | .tick _ => none

/-- The pins a command names (30_encoding.md R81: format A alone). -/
def Instr.pins : Instr → List PinId
  | .attach _ _ p1 p2 p3 p4 => [p1, p2, p3, p4]
  | .detach _ => []
  | .psave .. => []
  | .intr .. => []
  | .setpos .. => []
  | .setorg _ => []
  | .getpos _ => []
  | .setspd .. => []
  | .step .. => []
  | .ismov _ => []
  | .stop _ => []
  | .tick _ => []

end Sys2Proof
end

