-- ==== Sys2Proof/WellFormed.lean ====
section
/-! DEFINITION. Which instructions have all operands in the range the spec calls legal. Index operands cannot be out of
range (20_memory.md R69) and every immediate is accepted (30_encoding.md R101), so one check remains. -/

namespace Sys2Proof

/-- The one operand check of the spec: ATTACH's `spr` is at least 1000, R7's machine's `SPR_MIN` (10_state.md R23,
30_encoding.md R101), so it is not 0 (93_implementation_defined.md U1). -/
def Instr.wellFormed : Instr → Bool
  | .attach _ spr _ _ _ _ => decide (Config.default.sprMin ≤ spr.toNat)
  | .detach _ => true
  | .psave _ _ => true
  | .intr _ _ => true
  | .setpos _ _ => true
  | .setorg _ => true
  | .getpos _ => true
  | .setspd _ _ => true
  | .step _ _ => true
  | .ismov _ => true
  | .stop _ => true
  | .tick _ => true

end Sys2Proof
end

