-- ==== Sys2Proof/Decode.lean ====
section
/-! DEFINITION. The port words, the opcode map, the decoder (total, rejecting by name), the encoder, the pseudo-operations
and the listing form (30_encoding.md R80 to R85, R100 to R103). Words are presented whole: there is no byte order
(20_memory.md R68), so the decoder reads a 64-bit command word or the 33-bit pattern of the TICK ports. -/

namespace Sys2Proof

/-- What stands on the ports for one event: a command word, or the pattern `tick ++ now_us` (30_encoding.md R79, R85). -/
inductive Wire where
  | command (w : CmdWord)
  | tickPort (w : TickWord)
  deriving DecidableEq, Repr

/-- Why a word is no instruction (30_encoding.md R100); `noTick` is the TICK port at `tick = 0`, which is no event. -/
inductive DecodeError where
  /-- `op` is 0x0 or 0xC..0xF -/
  | reservedOpcode
  /-- `rsv` is not `0b00` -/
  | reservedBitsSet
  /-- a payload bit that the format says must be 0 is 1 -/
  | payloadNotZero
  /-- `tick = 0` -/
  | noTick
  deriving DecidableEq, Repr

/-- The payload formats of command words (30_encoding.md R81). -/
inductive CmdFormat where
  | A | N | I | B
  deriving DecidableEq, Repr

/-- The assigned opcodes (30_encoding.md R84). -/
inductive Op where
  | attach | detach | psave | intr | setpos | setorg | getpos | setspd | step | ismov | stop
  deriving DecidableEq, Repr

/-! The fields of a command word (30_encoding.md R80, R81). -/

def opField (w : CmdWord) : BitVec 4 := w.extractLsb' 60 4
def midField (w : CmdWord) : MotorId := (w.extractLsb' 58 2).toFin
def rsvField (w : CmdWord) : BitVec 2 := w.extractLsb' 56 2
def sprField (w : CmdWord) : Word := w.extractLsb' 24 32
def p1Field (w : CmdWord) : PinId := (w.extractLsb' 18 6).toFin
def p2Field (w : CmdWord) : PinId := (w.extractLsb' 12 6).toFin
def p3Field (w : CmdWord) : PinId := (w.extractLsb' 6 6).toFin
def p4Field (w : CmdWord) : PinId := (w.extractLsb' 0 6).toFin
def immField (w : CmdWord) : Word := w.extractLsb' 0 32
def enField (w : CmdWord) : Bool := w.getLsbD 0

/-- The opcode map, first column (30_encoding.md R84); 0x0 and 0xC..0xF are reserved. -/
def Op.ofBits (b : BitVec 4) : Option Op :=
  match b.toNat with
  | 0x1 => some .attach
  | 0x2 => some .detach
  | 0x3 => some .psave
  | 0x4 => some .intr
  | 0x5 => some .setpos
  | 0x6 => some .setorg
  | 0x7 => some .getpos
  | 0x8 => some .setspd
  | 0x9 => some .step
  | 0xA => some .ismov
  | 0xB => some .stop
  | _ => none

def Op.format : Op → CmdFormat
  | .attach => .A
  | .detach => .N
  | .psave => .B
  | .intr => .B
  | .setpos => .I
  | .setorg => .N
  | .getpos => .N
  | .setspd => .I
  | .step => .I
  | .ismov => .N
  | .stop => .N

/-- Whether every must-be-zero payload bit of the format is 0 (30_encoding.md R81). -/
def CmdFormat.payloadOk (f : CmdFormat) (w : CmdWord) : Bool :=
  match f with
  | .A => true
  | .N => w.extractLsb' 0 56 == 0#56
  | .I => w.extractLsb' 32 24 == 0#24
  | .B => w.extractLsb' 1 55 == 0#55

/-- The operands of a legal word, assembled (30_encoding.md R82, R83). -/
def Op.assemble (o : Op) (w : CmdWord) : Instr :=
  match o with
  | .attach => .attach (midField w) (sprField w) (p1Field w) (p2Field w) (p3Field w) (p4Field w)
  | .detach => .detach (midField w)
  | .psave => .psave (midField w) (enField w)
  | .intr => .intr (midField w) (enField w)
  | .setpos => .setpos (midField w) (immField w)
  | .setorg => .setorg (midField w)
  | .getpos => .getpos (midField w)
  | .setspd => .setspd (midField w) (immField w)
  | .step => .step (midField w) (immField w)
  | .ismov => .ismov (midField w)
  | .stop => .stop (midField w)

/-- The command decoder: every 64-bit word is one of the eleven commands or illegal, by name (30_encoding.md R84, R100). -/
def decodeCommand (w : CmdWord) : Except DecodeError Instr :=
  match Op.ofBits (opField w) with
  | none => .error .reservedOpcode
  | some o =>
    if rsvField w ≠ 0#2 then .error .reservedBitsSet
    else if o.format.payloadOk w then .ok (o.assemble w)
    else .error .payloadNotZero

/-- The TICK ports (30_encoding.md R85): an event exactly when `tick = 1`. -/
def decodeTick (w : TickWord) : Except DecodeError Instr :=
  if w.getLsbD 32 then .ok (.tick (w.extractLsb' 0 32)) else .error .noTick

def decode : Wire → Except DecodeError Instr
  | .command w => decodeCommand w
  | .tickPort w => decodeTick w

/-! The encoder, from the same tables. -/

/-- `op ++ mid ++ rsv` (30_encoding.md R80). -/
def header (op : BitVec 4) (m : MotorId) : BitVec 8 := op ++ BitVec.ofFin (w := 2) m ++ 0#2

/-- CmdFormat A: `spr ++ p1 ++ p2 ++ p3 ++ p4` (30_encoding.md R81). -/
def payloadA (spr : Word) (p1 p2 p3 p4 : PinId) : BitVec 56 :=
  spr ++ BitVec.ofFin (w := 6) p1 ++ BitVec.ofFin (w := 6) p2 ++ BitVec.ofFin (w := 6) p3 ++ BitVec.ofFin (w := 6) p4

/-- CmdFormat I (30_encoding.md R81). -/
def payloadI (imm : Word) : BitVec 56 := 0#24 ++ imm

/-- CmdFormat B (30_encoding.md R81). -/
def payloadB (en : Bool) : BitVec 56 := 0#55 ++ BitVec.ofBool en

def encode : Instr → Wire
  | .attach m spr p1 p2 p3 p4 => .command (header 0x1#4 m ++ payloadA spr p1 p2 p3 p4)
  | .detach m => .command (header 0x2#4 m ++ 0#56)
  | .psave m en => .command (header 0x3#4 m ++ payloadB en)
  | .intr m en => .command (header 0x4#4 m ++ payloadB en)
  | .setpos m target => .command (header 0x5#4 m ++ payloadI target)
  | .setorg m => .command (header 0x6#4 m ++ 0#56)
  | .getpos m => .command (header 0x7#4 m ++ 0#56)
  | .setspd m us => .command (header 0x8#4 m ++ payloadI us)
  | .step m n => .command (header 0x9#4 m ++ payloadI n)
  | .ismov m => .command (header 0xA#4 m ++ 0#56)
  | .stop m => .command (header 0xB#4 m ++ 0#56)
  | .tick now => .tickPort (1#1 ++ now)

/-- A row of the opcode map's match and mask columns (30_encoding.md R84). -/
structure OpRow where
  mnemonic : String
  mtch : CmdWord
  mask : CmdWord
  deriving DecidableEq, Repr

/-- The opcode map of 30_encoding.md R84, its match and mask columns. -/
def opTable : List OpRow :=
  [ ⟨"ATTACH", 0x1000000000000000#64, 0xF300000000000000#64⟩,
    ⟨"DETACH", 0x2000000000000000#64, 0xF3FFFFFFFFFFFFFF#64⟩,
    ⟨"PSAVE", 0x3000000000000000#64, 0xF3FFFFFFFFFFFFFE#64⟩,
    ⟨"INTR", 0x4000000000000000#64, 0xF3FFFFFFFFFFFFFE#64⟩,
    ⟨"SETPOS", 0x5000000000000000#64, 0xF3FFFFFF00000000#64⟩,
    ⟨"SETORG", 0x6000000000000000#64, 0xF3FFFFFFFFFFFFFF#64⟩,
    ⟨"GETPOS", 0x7000000000000000#64, 0xF3FFFFFFFFFFFFFF#64⟩,
    ⟨"SETSPD", 0x8000000000000000#64, 0xF3FFFFFF00000000#64⟩,
    ⟨"STEP", 0x9000000000000000#64, 0xF3FFFFFF00000000#64⟩,
    ⟨"ISMOV", 0xA000000000000000#64, 0xF3FFFFFFFFFFFFFF#64⟩,
    ⟨"STOP", 0xB000000000000000#64, 0xF3FFFFFFFFFFFFFF#64⟩ ]

/-- A word is a row's command when `(w & mask) = match` (30_encoding.md R84). -/
def OpRow.matches (r : OpRow) (w : CmdWord) : Bool := w &&& r.mask == r.mtch

/-- The row's match and mask on the TICK ports (30_encoding.md R85). -/
def tickMatch : TickWord := 0x100000000#33
def tickMask : TickWord := 0x100000000#33

/-! The host's word numbering: bit 0 is the least significant bit; the command row has 64 bits, the TICK row 33, which is
40 in whole bytes (log entry 9). -/

/-- The port word that `nbits` bits with value `w` stand for. -/
def wireOf (nbits w : Nat) : Wire :=
  if nbits ≤ 40 then .tickPort (BitVec.ofNat 33 w) else .command (BitVec.ofNat 64 w)

def decodeTableWord (nbits w : Nat) : Option Instr :=
  match decode (wireOf nbits w) with
  | .ok i => some i
  | .error _ => none

/-! Pseudo-operations (30_encoding.md R103) and the listing form (R102). -/

inductive Pseudo where
  | setabspos (m : MotorId) (udeg : Word)
  | attachs (m : MotorId) (steps : Nat) (p1 p2 p3 p4 : PinId)
  | setposd (m : MotorId) (deg : Int)
  | ticks (now0 dt : Word) (k : Nat)
  | nop
  deriving DecidableEq, Repr

/-- `TICK now0`, `TICK now0+dt`, ..., `k` of them, each modulo 2^32. -/
def tickTrain (now0 dt : Word) : Nat → List Wire
  | 0 => []
  | k + 1 => encode (.tick now0) :: tickTrain (now0 + dt) dt k

/-- The expansion column of 30_encoding.md R103. R103 says "each modulo 2^32" for TICKS alone: that ATTACHS with
`S*1000 >= 2^32` and SETPOSD with `d*1000000` outside 32 bits two's complement expand to the operand modulo 2^32 is the
model's (DESIGN CHOICE, log entry 15). -/
def Pseudo.expand : Pseudo → List Wire
  | .setabspos m udeg => [encode (.setpos m udeg)]
  | .attachs m steps p1 p2 p3 p4 => [encode (.attach m (BitVec.ofNat 32 (steps * 1000)) p1 p2 p3 p4)]
  | .setposd m deg => [encode (.setpos m (BitVec.ofInt 32 (deg * 1000000)))]
  | .ticks now0 dt k => tickTrain now0 dt k
  | .nop => [.command 0x0000000000000000#64]

/-- One line of a listing (30_encoding.md R102), numbers in decimal. -/
def Instr.line : Instr → String
  | .attach m spr p1 p2 p3 p4 =>
    "ATTACH " ++ toString m.val ++ ", " ++ toString spr.toNat ++ ", " ++ toString p1.val ++ ", " ++ toString p2.val
      ++ ", " ++ toString p3.val ++ ", " ++ toString p4.val
  | .detach m => "DETACH " ++ toString m.val
  | .psave m en => "PSAVE " ++ toString m.val ++ ", " ++ toString en.toNat
  | .intr m en => "INTR " ++ toString m.val ++ ", " ++ toString en.toNat
  | .setpos m target => "SETPOS " ++ toString m.val ++ ", " ++ toString target.toInt
  | .setorg m => "SETORG " ++ toString m.val
  | .getpos m => "GETPOS " ++ toString m.val
  | .setspd m us => "SETSPD " ++ toString m.val ++ ", " ++ toString us.toNat
  | .step m n => "STEP " ++ toString m.val ++ ", " ++ toString n.toInt
  | .ismov m => "ISMOV " ++ toString m.val
  | .stop m => "STOP " ++ toString m.val
  | .tick now => "TICK " ++ toString now.toNat

end Sys2Proof
end

