-- ==== Sys2Proof/Machine/State.lean ====
section
/-! DEFINITION. The machine's state (10_state.md), plain data, its reset value (70_reset_and_hazards.md R231), and the
reasons a step can stop. -/

namespace Sys2Proof.Machine

/-- A motor context `M[m]`, field by field (10_state.md R21). -/
structure Motor where
  /-- IN1 (R22) -/
  pin1 : PinId
  /-- IN2 (R22) -/
  pin2 : PinId
  /-- IN3 (R22) -/
  pin3 : PinId
  /-- IN4 (R22) -/
  pin4 : PinId
  /-- `stepsPerRevolution`, unsigned thousandths of a step (R23) -/
  spr : Word
  /-- `degreePerStep`, unsigned micro-degrees (R24) -/
  dps : Word
  /-- the lifecycle bit (R25) -/
  attached : Bool
  /-- `remainingSteps`, two's complement (R26) -/
  remaining : Word
  /-- `positionDegrees`, two's complement micro-degrees (R27) -/
  pos : Word
  /-- `forwardActive` (R28) -/
  fwd : Bool
  /-- `backwardActive` (R28) -/
  bwd : Bool
  /-- `forwardPhaseIndex` (R29) -/
  fidx : Cursor
  /-- `backwardPhaseIndex` (R29) -/
  bidx : Cursor
  /-- `lastPhaseTimestamp`, unsigned microseconds (R30) -/
  last : Word
  /-- `minPhaseDelayUs`, unsigned microseconds (R31) -/
  mindelay : Word
  /-- `powerSaverEnabled` (R32) -/
  psave : Bool
  /-- `interruptible` (R32) -/
  intr : Bool
  deriving DecidableEq, Repr

/-- The input ports in one clock (30_encoding.md R79). `cmdWord` counts only while `cmdValid`, `nowUs` only while `tick`. -/
structure PortIn where
  rst : Bool
  cmdValid : Bool
  cmdWord : CmdWord
  tick : Bool
  nowUs : Word
  deriving DecidableEq, Repr

/-- Everything the spec gives the machine (10_state.md), the parameters, and the clocks still to come. -/
structure State where
  /-- `M[0..3]` (10_state.md R20) -/
  motors : Vector Motor 4
  /-- the Motor Registry as the list `[REG[0], ..., REG[reg_count-1]]` (10_state.md R39) -/
  registry : List MotorId
  /-- `timer_en` (10_state.md R36) -/
  timerEn : Bool
  /-- `PIN[0..63]`, bit `p` is `PIN[p]` (10_state.md R37, 30_encoding.md R79) -/
  pin : BitVec 64
  /-- `PINDIR[0..63]`, bit `p` is `PINDIR[p]` (10_state.md R38, 30_encoding.md R79) -/
  pinDir : BitVec 64
  /-- the response port: `some v` is `rsp_valid = 1` with `rsp_data = v`, `none` is `rsp_valid = 0` (30_encoding.md R79, R97) -/
  rsp : Option Word
  /-- the parameters of this machine; no step writes them (00_scope.md R7, 20_memory.md R77; DESIGN CHOICE, log entry 3) -/
  cfg : Config
  /-- the MODEL's own field: what the environment will present, clock by clock (00_scope.md R9; DESIGN CHOICE, log entry 2) -/
  inputs : List PortIn
  deriving DecidableEq, Repr

/-- Why the machine would stop with a fault. No constructor: the block has no fault state (60_exceptions.md R200), so
nothing can raise one. Safe: this says that no step faults. -/
inductive Fault where
  deriving DecidableEq, Repr

/-- Why a step has no meaning. -/
inductive Refusal where
  /-- Raised by `exec` for an instruction with no meaning yet (none is left). Safe: nothing is claimed of it. -/
  | notModelled (mnemonic : String)
  /-- Raised by ATTACH with `spr` 0 or below `SPR_MIN`, that is 1000, which the spec gives to the model as a refusal
  (30_encoding.md R101; 93_implementation_defined.md U1, U2). Safe: nothing is claimed of what the hardware does then (log entry 4). -/
  | attachSprBelowMinimum
  deriving DecidableEq, Repr

/-- A motor context right after reset (70_reset_and_hazards.md R231). -/
def Motor.reset (cfg : Config) : Motor :=
  { pin1 := 0, pin2 := 0, pin3 := 0, pin4 := 0
    spr := 0#32, dps := 0#32, attached := false
    remaining := 0#32, pos := 0#32
    fwd := false, bwd := false
    fidx := 0#3, bidx := cfg.lastPlace
    last := 0#32
    mindelay := cfg.minDelayReset, psave := cfg.psaveReset, intr := cfg.intrReset }

/-- The machine with parameters `cfg` right after reset (70_reset_and_hazards.md R231), no clock presented yet. -/
def State.resetWith (cfg : Config) : State :=
  { motors := Vector.replicate 4 (Motor.reset cfg)
    registry := []
    timerEn := false
    pin := 0#64
    pinDir := 0#64
    rsp := none
    cfg := cfg
    inputs := [] }

/-- The machine right after reset, with the default parameters (log entry 3). -/
def State.reset : State := State.resetWith Config.default

end Sys2Proof.Machine
end

