-- ==== Sys2Proof/Machine/Operands.lean ====
section
/-! DEFINITION. How operands and fields are read, and the integer arithmetic of the block (00_scope.md section 6 and R12).

A field of `N` bits stands in a 32-bit place, zero-extended when the field is unsigned, sign-extended when it is two's
complement; at R7's widths (`N = 32`) it is the whole place. For another `N` the rules' `uint_32`, `sint_32`, `wrap_32` of the
field are read at `N` (DESIGN CHOICE, log entry 8). -/

namespace Sys2Proof.Machine

/-- `uint_32` (00_scope.md section 6). -/
def uint32 (v : Word) : Nat := v.toNat

/-- `sint_32` (00_scope.md section 6). -/
def sint32 (v : Word) : Int := v.toInt

/-- `wrap_32` (00_scope.md section 6). -/
def wrap32 (z : Int) : Word := BitVec.ofInt 32 z

/-- `zext_32` of the low `n` bits of `v`: what an unsigned field of `n` bits keeps of `v`. -/
def zextLow (n : Nat) (v : Word) : Word := BitVec.ofNat 32 (uint32 v % 2 ^ n)

/-- `sext_32(wrap_n(z))`: what a two's complement field of `n` bits keeps of `z`. -/
def sextWrap (n : Nat) (z : Int) : Word := wrap32 (z.bmod (2 ^ n))

/-- `floordiv(a, b)` for `a >= 0`, `b > 0` (00_scope.md section 6). -/
def floordiv (a b : Nat) : Nat := a / b

/-- `truncdiv(a, b)` for `b > 0`: rounds toward zero at both signs (00_scope.md section 6). -/
def truncdiv (a : Int) (b : Nat) : Int :=
  if 0 ≤ a then (floordiv a.toNat b : Int) else -(floordiv (-a).toNat b : Int)

/-- `SEQ[i]` (20_memory.md R62, R63): the low `PAT_W` bits of its place, all four at R7's width. -/
def seqEntry (c : Config) (i : Cursor) : Pattern := BitVec.ofNat 4 (c.seq[i.toFin].toNat % 2 ^ c.patW)

/-- `elapsed(now, last)`: the difference modulo `2^TS_W`, read unsigned (43_speed_governor.md R181). -/
def elapsed (c : Config) (now last : Word) : Nat := uint32 (zextLow c.tsW (now - last))

/-- Whether ATTACH accepts this `spr` (as its field keeps it): not 0, which has no quotient
(93_implementation_defined.md U1), and at least `SPR_MIN` (U2). -/
def sprAccepted (c : Config) (spr : Word) : Bool :=
  decide (0 < uint32 (zextLow c.sprW spr)) && decide (c.sprMin ≤ uint32 (zextLow c.sprW spr))

/-- `dps_of(spr)` for `spr >= 1` (40_registry_dispatch.md R113; ATTACH refuses 0). The field has 32 bits (10_state.md R24).
A quotient that does not fit them, which takes an `SPR_MIN` below 84 at R7's numbers, has no result in the spec, and the
field holds a free value (DESIGN CHOICE, log entry 17). -/
def dpsOf (c : Config) (spr : Word) : Word :=
  if floordiv c.turnNum (uint32 spr) < 2 ^ 32 then BitVec.ofNat 32 (floordiv c.turnNum (uint32 spr))
  else Config.dpsOutOfRange (floordiv c.turnNum (uint32 spr))

/-- The step count of SETPOS (42_commands.md R163): the exact product, divided once, rounded toward zero. The target is
read at the width of `pos`. -/
def setposSteps (c : Config) (target pos spr : Word) : Int :=
  truncdiv ((sint32 (sextWrap c.posW (sint32 target)) - sint32 pos) * (uint32 spr : Int)) c.turnNum

/-- The field `pos` after an exact sum or difference `z` (41_step_sequencer.md R137, R140). Where `z` does not fit the
field 00_scope.md R12 gives no result, and the field holds a free value (DESIGN CHOICE, log entry 5). -/
def posField (c : Config) (z : Int) : Word :=
  if -2 ^ (c.posW - 1) ≤ z ∧ z < 2 ^ (c.posW - 1) then wrap32 z
  else sextWrap c.posW (sint32 (Config.posOutOfRange z))

end Sys2Proof.Machine
end

