-- ==== Sys2Proof/Machine/Flags.lean ====
section
/-! DEFINITION. What is computed from a motor's flags and step count: the branch a motor tick takes, the derived sequencer
state, and `isMoving`. There are no arithmetic condition codes (10_state.md R34). -/

namespace Sys2Proof.Machine

/-- The branches of a motor tick (41_step_sequencer.md R130, R131). -/
inductive Branch where
  /-- P, rule R134 -/
  | powerSaver
  /-- F, rule R132 -/
  | forward
  /-- B, rule R133 -/
  | backward
  /-- I, rule R135 -/
  | idle
  deriving DecidableEq, Repr

/-- The Step Sequencer's derived states (10_state.md R35). -/
inductive SeqState where
  | idle
  | steppingForward
  | steppingBackward
  deriving DecidableEq, Repr

/-- Which branch is taken: P, F, B, I tried in this order (41_step_sequencer.md R130, R131). -/
def Motor.branch (x : Motor) : Branch :=
  if x.psave = true ∧ sint32 x.remaining = 0 then .powerSaver
  else if x.fwd = true ∨ (x.bwd = false ∧ 0 < sint32 x.remaining) then .forward
  else if x.bwd = true ∨ sint32 x.remaining < 0 then .backward
  else .idle

/-- `seqstate(m)` (10_state.md R35). -/
def Motor.seqState (x : Motor) : SeqState :=
  if x.fwd = true ∨ (x.bwd = false ∧ 0 < sint32 x.remaining) then .steppingForward
  else if x.bwd = true ∨ sint32 x.remaining < 0 then .steppingBackward
  else .idle

/-- `isMoving()`: `remaining != 0`, and nothing else (42_commands.md R167). -/
def Motor.isMoving (x : Motor) : Bool := x.remaining != 0#32

/-- Whether STEP and SETPOS are accepted: `remaining = 0` or interruptible (42_commands.md R160). -/
def Motor.acceptsRequest (x : Motor) : Bool := x.remaining == 0#32 || x.intr

end Sys2Proof.Machine
end

