-- ==== Sys2Proof/Machine/Ops.lean ====
section
/-! DEFINITION. The named operations over the state: motor contexts, the Sequence Table, pins, the registry, the response
port and the input ports. The block raises no exception (60_exceptions.md R200) and its one interrupt, the TICK, saves
nothing at entry and restores nothing at return (R208, R209), so there is no exception-taking operation here. -/

namespace Sys2Proof.Machine

/-! Motor contexts (00_scope.md section 6: `M[m].f`, `M[m].f <- v`). -/

def State.motor (s : State) (m : MotorId) : Motor := s.motors[m]

def State.setMotor (s : State) (m : MotorId) (x : Motor) : State := { s with motors := s.motors.set m x }

/-- Rewrite the fields of one context. -/
def State.updMotor (s : State) (m : MotorId) (f : Motor → Motor) : State := s.setMotor m (f (s.motor m))

/-! The Sequence Table and the pins. -/

/-- `SeqRead(i)` (20_memory.md R62). -/
def State.seqRead (s : State) (i : Cursor) : Pattern := seqEntry s.cfg i

/-- Bit `p` of a 64-bit image set to `v`. -/
def setBit (image : BitVec 64) (p : PinId) (v : Bool) : BitVec 64 :=
  if v then image ||| (1#64 <<< p.val) else image &&& ~~~(1#64 <<< p.val)

/-- Bit `p` of a 64-bit image. -/
def getBit (image : BitVec 64) (p : PinId) : Bool := image.getLsbD p.val

/-- `PinWrite(p, v)` (20_memory.md R65). -/
def State.pinWrite (s : State) (p : PinId) (v : Bool) : State := { s with pin := setBit s.pin p v }

/-- `PINDIR[p] <- 1` (40_registry_dispatch.md R112). -/
def State.pinDirSet (s : State) (p : PinId) : State := { s with pinDir := setBit s.pinDir p true }

/-- `PIN[p]` (10_state.md R37). -/
def State.pinAt (s : State) (p : PinId) : Bool := getBit s.pin p

/-- `PINDIR[p]` (10_state.md R38). -/
def State.pinDirAt (s : State) (p : PinId) : Bool := getBit s.pinDir p

/-- The four pin writes of a pattern, in the order IN1, IN2, IN3, IN4 (20_memory.md R64, R65). -/
def State.drive (s : State) (x : Motor) (pat : Pattern) : State :=
  (((s.pinWrite x.pin1 (pat.getLsbD 0)).pinWrite x.pin2 (pat.getLsbD 1)).pinWrite x.pin3 (pat.getLsbD 2)).pinWrite
    x.pin4 (pat.getLsbD 3)

/-- `apply(m, pat)` (20_memory.md R65). -/
def State.applyPattern (s : State) (m : MotorId) (pat : Pattern) : State := s.drive (s.motor m) pat

/-! The registry (40_registry_dispatch.md R110, R111; 10_state.md R39). -/

/-- `reg_add(m)`: a no-op when `m` is present or the registry is full, else appends (R110). -/
def State.regAdd (s : State) (m : MotorId) : State :=
  if m ∈ s.registry then s
  else if s.cfg.regCap ≤ s.registry.length then s
  else { s with registry := s.registry ++ [m] }

/-- `reg_remove(m)`: removes `m` and closes the gap, a no-op when absent (R111). -/
def State.regRemove (s : State) (m : MotorId) : State := { s with registry := s.registry.erase m }

/-- `reg_count`, the hardware image's 2-bit counter (10_state.md R39). -/
def State.regCount (s : State) : BitVec 2 := BitVec.ofNat 2 s.registry.length

/-- `REG[i]`, the hardware image's slot; a slot at or above `reg_count` holds 0 (10_state.md R39). -/
def State.regSlot (s : State) (i : Fin 3) : MotorId := s.registry.getD i.val 0

/-! The response port (30_encoding.md R79, R97). -/

/-- `respond(v)`. -/
def State.respond (s : State) (v : Word) : State := { s with rsp := some v }

/-- `rsp_valid` falls: it is 1 only in the clock after a GETPOS or ISMOV was taken (R79). -/
def State.clearRsp (s : State) : State := { s with rsp := none }

/-! The request of STEP and SETPOS (42_commands.md R160, R163). -/

/-- `remaining <- wrap_N(n)`, `N = STEPS_W`, when idle or interruptible, else dropped without a trace. -/
def State.requestSteps (s : State) (m : MotorId) (n : Int) : State :=
  if (s.motor m).acceptsRequest then s.updMotor m fun x => { x with remaining := sextWrap s.cfg.stepsW n } else s

/-! Reset (70_reset_and_hazards.md R230). -/

/-- Every field at its reset value, for this machine's parameters; the environment's coming clocks are not the block's. -/
def State.takeReset (s : State) : State := { State.resetWith s.cfg with inputs := s.inputs }

/-! The ports (30_encoding.md R79, R85). -/

/-- `tick ++ now_us`. -/
def PortIn.tickWord (c : PortIn) : TickWord := BitVec.ofBool c.tick ++ c.nowUs

/-- A clock with no reset and exactly one event presented. -/
def PortIn.ofWire : Wire → PortIn
  | .command w => { rst := false, cmdValid := true, cmdWord := w, tick := false, nowUs := 0#32 }
  | .tickPort w =>
    { rst := false, cmdValid := false, cmdWord := 0#64, tick := w.getLsbD 32, nowUs := w.extractLsb' 0 32 }

/-- The output ports (30_encoding.md R79); `rspData` has a value only while `rspValid`. -/
structure PortOut where
  cmdReady : Bool
  rspValid : Bool
  rspData : Option Word
  timerEn : Bool
  pinLevel : BitVec 64
  pinDir : BitVec 64
  deriving DecidableEq, Repr

def State.ports (s : State) : PortOut :=
  { cmdReady := true, rspValid := s.rsp.isSome, rspData := s.rsp, timerEn := s.timerEn
    pinLevel := s.pin, pinDir := s.pinDir }

/-- Go on with the next state, or stop where the first part stopped. -/
def andThen (o : Host.Outcome State Fault Refusal) (f : State → Host.Outcome State Fault Refusal) :
    Host.Outcome State Fault Refusal :=
  match o with
  | .next s => f s
  | .fault r => .fault r
  | .refused r => .refused r

end Sys2Proof.Machine
end

