-- ==== Sys2Proof/Machine/Modes.lean ====
section
/-! DEFINITION. The mode flags (44_mode_flags.md). -/

namespace Sys2Proof.Machine

/-- PSAVE m, en (44_mode_flags.md R190). -/
def execPsave (m : MotorId) (en : Bool) (s : State) : Host.Outcome State Fault Refusal :=
  .next (s.updMotor m fun x => { x with psave := en })

/-- INTR m, en (44_mode_flags.md R191). -/
def execIntr (m : MotorId) (en : Bool) (s : State) : Host.Outcome State Fault Refusal :=
  .next (s.updMotor m fun x => { x with intr := en })

end Sys2Proof.Machine
end

