-- ==== Sys2Proof/Machine/Movement.lean ====
section
/-! DEFINITION. The movement and position commands (42_commands.md). None looks at `attached` or the registry (R169). -/

namespace Sys2Proof.Machine

/-- STEP m, n (42_commands.md R160). -/
def execStep (m : MotorId) (n : Word) (s : State) : Host.Outcome State Fault Refusal :=
  .next (s.requestSteps m (sint32 n))

/-- SETPOS m, target (42_commands.md R163). -/
def execSetpos (m : MotorId) (target : Word) (s : State) : Host.Outcome State Fault Refusal :=
  .next (s.requestSteps m (setposSteps s.cfg target (s.motor m).pos (s.motor m).spr))

/-- SETORG m (42_commands.md R165). -/
def execSetorg (m : MotorId) (s : State) : Host.Outcome State Fault Refusal :=
  .next (s.updMotor m fun x => { x with pos := 0#32 })

/-- GETPOS m (42_commands.md R166). -/
def execGetpos (m : MotorId) (s : State) : Host.Outcome State Fault Refusal :=
  .next (s.respond (s.motor m).pos)

/-- ISMOV m (42_commands.md R167). -/
def execIsmov (m : MotorId) (s : State) : Host.Outcome State Fault Refusal :=
  .next (s.respond (if (s.motor m).isMoving then 1#32 else 0#32))

/-- STOP m (42_commands.md R168). -/
def execStop (m : MotorId) (s : State) : Host.Outcome State Fault Refusal :=
  .next (s.updMotor m fun x => { x with remaining := 0#32 })

end Sys2Proof.Machine
end

