-- ==== Sys2Proof/Machine/Registry.lean ====
section
/-! DEFINITION. The motor registry's two commands (40_registry_dispatch.md). -/

namespace Sys2Proof.Machine

/-- The configuration fields ATTACH writes into the context (40_registry_dispatch.md R112), `spr` as its field keeps it. -/
def Motor.bindPins (x : Motor) (c : Config) (spr : Word) (p1 p2 p3 p4 : PinId) : Motor :=
  { x with
    pin1 := p1, pin2 := p2, pin3 := p3, pin4 := p4
    spr := zextLow c.sprW spr, dps := dpsOf c (zextLow c.sprW spr), attached := true }

/-- `timer_en <- 1` (40_registry_dispatch.md R115). -/
def State.enableTimer (s : State) : State := { s with timerEn := true }

/-- ATTACH m, spr, p1, p2, p3, p4 (40_registry_dispatch.md R112). `spr = 0` is refused whatever `SPR_MIN` is, and so is
`spr < SPR_MIN`, that is 1000 (30_encoding.md R101, 93_implementation_defined.md U1, U2; DEDUCED, log entry 4). Where an
`SPR_MIN` below 84 lets through an `spr` whose quotient does not fit `dps`, that field alone is a free value (log entry 17). -/
def execAttach (m : MotorId) (spr : Word) (p1 p2 p3 p4 : PinId) (s : State) : Host.Outcome State Fault Refusal :=
  if sprAccepted s.cfg spr then
    .next
      ((((((s.updMotor m fun x => x.bindPins s.cfg spr p1 p2 p3 p4).pinDirSet p1).pinDirSet p2).pinDirSet p3).pinDirSet
        p4).regAdd m).enableTimer
  else .refused .attachSprBelowMinimum

/-- DETACH m (40_registry_dispatch.md R116). -/
def execDetach (m : MotorId) (s : State) : Host.Outcome State Fault Refusal :=
  .next ((s.regRemove m).updMotor m fun x => { x with attached := false })

end Sys2Proof.Machine
end

