-- ==== Sys2Proof/Machine/Governor.lean ====
section
/-! DEFINITION. The speed governor: the gate and SETSPD (43_speed_governor.md). -/

namespace Sys2Proof.Machine

/-- `gate(m, now)`: pass when the elapsed time is at least `mindelay`, equality included (43_speed_governor.md R182). -/
def Motor.gate (x : Motor) (c : Config) (now : Word) : Bool := decide (uint32 x.mindelay ≤ elapsed c now x.last)

/-- SETSPD m, us (43_speed_governor.md R185). -/
def execSetspd (m : MotorId) (us : Word) (s : State) : Host.Outcome State Fault Refusal :=
  .next (s.updMotor m fun x => { x with mindelay := zextLow s.cfg.tsW us })

end Sys2Proof.Machine
end

