-- ==== Sys2Proof/Machine/Sequencer.lean ====
section
/-! DEFINITION. The step sequencer, the phase accumulator and the coil drive: the motor tick, and the TICK that performs it
for every registered motor (41_step_sequencer.md; 40_registry_dispatch.md R119). -/

namespace Sys2Proof.Machine

/-- What a sub-step signals (41_step_sequencer.md R130, R136). -/
inductive SubStep where
  | notYet
  | complete
  deriving DecidableEq, Repr

/-- The field writes of `fwd_complete` (41_step_sequencer.md R137). -/
def Motor.completeFwd (x : Motor) (c : Config) : Motor :=
  { x with
    fidx := 0#3, remaining := sextWrap c.stepsW (sint32 x.remaining - 1)
    pos := posField c (sint32 x.pos + (uint32 x.dps : Int)) }

/-- The field writes of `bwd_complete` (41_step_sequencer.md R140). -/
def Motor.completeBwd (x : Motor) (c : Config) : Motor :=
  { x with
    bidx := c.lastPlace, remaining := sextWrap c.stepsW (sint32 x.remaining + 1)
    pos := posField c (sint32 x.pos - (uint32 x.dps : Int)) }

/-- The single correction of `wrap_pos` (41_step_sequencer.md R141). -/
def Motor.wrapPos (x : Motor) (c : Config) : Motor :=
  if (c.fullTurn : Int) ≤ sint32 x.pos then { x with pos := sextWrap c.posW (sint32 x.pos - c.fullTurn) }
  else if sint32 x.pos < 0 then { x with pos := sextWrap c.posW (sint32 x.pos + c.fullTurn) }
  else x

/-- `fwd_substep(m, now)` (41_step_sequencer.md R136). -/
def fwdSubstep (m : MotorId) (now : Word) (s : State) : SubStep × State :=
  let s := s.applyPattern m (s.seqRead (s.motor m).fidx)
  if (s.motor m).gate s.cfg now then
    let s := s.updMotor m fun x => { x with last := zextLow s.cfg.tsW now }
    if (s.motor m).fidx = s.cfg.lastPlace then (.complete, s.updMotor m fun x => x.completeFwd s.cfg)
    else
      let s := s.updMotor m fun x => { x with fidx := x.fidx + 1#3 }
      (.notYet, s.applyPattern m (s.seqRead (s.motor m).fidx))
  else (.notYet, s)

/-- `bwd_substep(m, now)` (41_step_sequencer.md R139). -/
def bwdSubstep (m : MotorId) (now : Word) (s : State) : SubStep × State :=
  let s := s.applyPattern m (s.seqRead (s.motor m).bidx)
  if (s.motor m).gate s.cfg now then
    let s := s.updMotor m fun x => { x with last := zextLow s.cfg.tsW now }
    if (s.motor m).bidx = 0#3 then (.complete, s.updMotor m fun x => x.completeBwd s.cfg)
    else
      let s := s.updMotor m fun x => { x with bidx := x.bidx - 1#3 }
      (.notYet, s.applyPattern m (s.seqRead (s.motor m).bidx))
  else (.notYet, s)

/-- Branch F (41_step_sequencer.md R130, R132). -/
def branchForward (m : MotorId) (now : Word) (s : State) : State :=
  match fwdSubstep m now (s.updMotor m fun x => { x with fwd := true }) with
  | (.notYet, t) => t
  | (.complete, t) => (t.updMotor m fun x => { x with fwd := false }).updMotor m fun x => x.wrapPos t.cfg

/-- Branch B (41_step_sequencer.md R130, R133). -/
def branchBackward (m : MotorId) (now : Word) (s : State) : State :=
  match bwdSubstep m now (s.updMotor m fun x => { x with bwd := true }) with
  | (.notYet, t) => t
  | (.complete, t) => (t.updMotor m fun x => { x with bwd := false }).updMotor m fun x => x.wrapPos t.cfg

/-- `motor_tick(m, now)` (41_step_sequencer.md R130). -/
def motorTick (m : MotorId) (now : Word) (s : State) : State :=
  match (s.motor m).branch with
  | .powerSaver => s.applyPattern m 0#4
  | .forward => branchForward m now s
  | .backward => branchBackward m now s
  | .idle => s

/-- The motor ticks of the listed motors, in the list's order (40_registry_dispatch.md R119). -/
def dispatchTicks (now : Word) : List MotorId → State → State
  | [], s => s
  | m :: ms, s => dispatchTicks now ms (motorTick m now s)

/-- TICK now (40_registry_dispatch.md R119): one motor tick for every registered motor, in registry order, all with the
same `now` (R120), whatever `timer_en` is (60_exceptions.md R206). -/
def execTick (now : Word) (s : State) : Host.Outcome State Fault Refusal :=
  .next (dispatchTicks now s.registry s)

end Sys2Proof.Machine
end

