-- ==== Sys2Proof/Machine/Dispatch.lean ====
section
/-! DEFINITION. One arm per operation of the opcode table. -/

namespace Sys2Proof.Machine

def exec (i : Instr) (s : State) : Host.Outcome State Fault Refusal :=
  match i with
  | .attach m spr p1 p2 p3 p4 => Sys2Proof.Machine.execAttach m spr p1 p2 p3 p4 s
  | .detach m => Sys2Proof.Machine.execDetach m s
  | .psave m en => Sys2Proof.Machine.execPsave m en s
  | .intr m en => Sys2Proof.Machine.execIntr m en s
  | .setpos m target => Sys2Proof.Machine.execSetpos m target s
  | .setorg m => Sys2Proof.Machine.execSetorg m s
  | .getpos m => Sys2Proof.Machine.execGetpos m s
  | .setspd m us => Sys2Proof.Machine.execSetspd m us s
  | .step m n => Sys2Proof.Machine.execStep m n s
  | .ismov m => Sys2Proof.Machine.execIsmov m s
  | .stop m => Sys2Proof.Machine.execStop m s
  | .tick now => Sys2Proof.Machine.execTick now s

end Sys2Proof.Machine
end

