-- ==== Sys2Proof/Machine/Clock.lean ====
section
/-! DEFINITION. One rising clock edge: what the input ports present is decoded and executed (30_encoding.md R79). -/

namespace Sys2Proof.Machine

/-- The TICK ports: the event, or nothing when `tick = 0` (30_encoding.md R85). -/
def runTickPort (c : PortIn) (s : State) : Host.Outcome State Fault Refusal :=
  match decode (.tickPort c.tickWord) with
  | .ok i => exec i s
  | .error _ => .next s

/-- Whether `MID_W` bits name this motor and there are that many: a motor id at or above `N_MOTORS` makes the command an
illegal encoding (20_memory.md R69); at R7's values every id exists. -/
def hasMotor (c : Config) (m : MotorId) : Bool := decide (m.val < c.nMotors) && decide (m.val < 2 ^ c.midW)

/-- The same for a pin id, `N_PINS` and `PIN_W`. R69 states it of motors only; that it holds of pins is the model's (DESIGN
CHOICE, log entry 16). At R7's values every 6-bit value names a pin (10_state.md R22). -/
def hasPin (c : Config) (p : PinId) : Bool := decide (p.val < c.nPins) && decide (p.val < 2 ^ c.pinW)

/-- Whether everything that an event names exists. -/
def hasOperandsOf (c : Config) (i : Instr) : Bool :=
  (match i.motor? with
    | none => true
    | some m => hasMotor c m) && i.pins.all (hasPin c)

/-- The command port: the command, or nothing when `cmd_valid = 0` or the word is illegal (30_encoding.md R100). -/
def runCommandPort (c : PortIn) (s : State) : Host.Outcome State Fault Refusal :=
  if c.cmdValid then
    match decode (.command c.cmdWord) with
    | .ok i => if hasOperandsOf s.cfg i then exec i s else .next s
    | .error _ => .next s
  else .next s

/-- One clock: `rst` wins and hides the events (R79, 70_reset_and_hazards.md R230); otherwise `rsp_valid` falls, the TICK is
performed, and then the command (20_memory.md R75). -/
def clockEdge (c : PortIn) (s : State) : Host.Outcome State Fault Refusal :=
  if c.rst then .next s.takeReset
  else andThen (runTickPort c s.clearRsp) (runCommandPort c)

/-- A clock that presents nothing (also every clock after the last listed one): the block holds its state
(60_exceptions.md R216, 70_reset_and_hazards.md R232), `rsp_valid` is 0 (30_encoding.md R79). -/
def idleClock (s : State) : Host.Outcome State Fault Refusal := .next s.clearRsp

/-- The next clock's ports, and the clocks after it. -/
def State.nextClock (s : State) : Option (PortIn × State) :=
  match s.inputs with
  | [] => none
  | c :: cs => some (c, { s with inputs := cs })

/-- `s` with one more clock presented, before all others, that carries exactly the event `wire`. -/
def State.present (s : State) (wire : Wire) : State := { s with inputs := PortIn.ofWire wire :: s.inputs }

end Sys2Proof.Machine
end

