-- ==== Sys2Proof/Machine/Step.lean ====
section
/-! DEFINITION. The step: one clock of the ports (30_encoding.md R79; log entry 1). -/

namespace Sys2Proof.Machine

def step (s : State) : Host.Outcome State Fault Refusal :=
  match s.nextClock with
  | none => idleClock s
  | some (c, t) => clockEdge c t

/-- `s` with the table word presented at the ports in the very next clock (log entries 2, 9). -/
def State.withFetchWord (s : State) (nbits w : Nat) : State := s.present (wireOf nbits w)

end Sys2Proof.Machine
end

