-- ==== Sys2Proof/Safety.lean ====
section
/-! DEFINITION. What claims are stated in: the invariant, frames, runs, and what counts as a safe run. -/

namespace Sys2Proof.Machine

/-! The invariant. -/

/-- What holds of a motor context in every reachable state of a machine with legal parameters `c`. -/
structure Motor.Inv (c : Config) (x : Motor) : Prop where
  /-- never both active flags (10_state.md R40) -/
  oneDirection : ¬ (x.fwd = true ∧ x.bwd = true)
  /-- the position is wrapped (10_state.md R42) -/
  posLow : 0 ≤ sint32 x.pos
  posHigh : sint32 x.pos < c.fullTurn
  /-- the step angle is the one of `spr`, or neither was ever written (10_state.md R24; 40_registry_dispatch.md R113) -/
  angle : (uint32 x.spr = 0 ∧ uint32 x.dps = 0) ∨ (c.sprMin ≤ uint32 x.spr ∧ uint32 x.dps = c.turnNum / uint32 x.spr)
  /-- an attached motor has a legal `spr` -/
  attachedAngle : x.attached = true → c.sprMin ≤ uint32 x.spr
  /-- a cursor off its starting place belongs to a sub-sequence in progress -/
  fwdCursor : x.fidx ≠ 0#3 → x.fwd = true
  bwdCursor : x.bidx ≠ c.lastPlace → x.bwd = true
  /-- a cursor stands at an entry of the table (10_state.md R41) -/
  cursorsInTable : x.fidx.toNat < c.seqLen ∧ x.bidx.toNat < c.seqLen
  /-- every field of a width of R7 fits it (10_state.md R21; `pos` does by `posLow`, `posHigh`) -/
  remainingFits : -2 ^ (c.stepsW - 1) ≤ sint32 x.remaining ∧ sint32 x.remaining < 2 ^ (c.stepsW - 1)
  sprFits : uint32 x.spr < 2 ^ c.sprW
  timesFit : uint32 x.last < 2 ^ c.tsW ∧ uint32 x.mindelay < 2 ^ c.tsW
  /-- its pins exist (10_state.md R22) -/
  pinsExist : hasPin c x.pin1 = true ∧ hasPin c x.pin2 = true ∧ hasPin c x.pin3 = true ∧ hasPin c x.pin4 = true

/-- What holds in every reachable state. -/
structure State.Inv (s : State) : Prop where
  /-- the parameters are legal ones -/
  legal : s.cfg.Legal
  motors : ∀ m, (s.motor m).Inv s.cfg
  /-- the registry never exceeds its capacity (10_state.md R43) -/
  capacity : s.registry.length ≤ s.cfg.regCap
  /-- no motor is registered twice (10_state.md R43) -/
  noDuplicate : s.registry.Nodup
  /-- a registered motor exists (20_memory.md R69) -/
  registeredExist : ∀ m ∈ s.registry, hasMotor s.cfg m = true
  /-- a registered motor is attached (10_state.md R25) -/
  registeredAttached : ∀ m ∈ s.registry, (s.motor m).attached = true
  /-- a registered motor's pins are outputs (10_state.md R38) -/
  registeredOutputs : ∀ m ∈ s.registry, s.pinDirAt (s.motor m).pin1 = true ∧ s.pinDirAt (s.motor m).pin2 = true ∧
    s.pinDirAt (s.motor m).pin3 = true ∧ s.pinDirAt (s.motor m).pin4 = true
  /-- once a motor is registered the timer is enabled (10_state.md R36) -/
  registeredTimer : s.registry ≠ [] → s.timerEn = true
  /-- only output pins are ever driven high (10_state.md R38) -/
  highIsOutput : ∀ p, s.pinAt p = true → s.pinDirAt p = true

/-! Operands. -/

/-- Everything that the event names exists in a machine with parameters `c`: at R7's values every event's operands do
(20_memory.md R69; log entry 16). -/
abbrev OperandsExist (c : Config) (i : Instr) : Prop :=
  (∀ m, i.motor? = some m → m.val < c.nMotors ∧ m.val < 2 ^ c.midW) ∧ ∀ p ∈ i.pins, p.val < c.nPins ∧ p.val < 2 ^ c.pinW

/-- ATTACH accepts this `spr`, as its `SPR_W` bits keep it: not 0 (93_implementation_defined.md U1), and at least `SPR_MIN` (U2).
At R7's and U2's values: `1000 ≤ spr`. -/
abbrev AttachAccepts (c : Config) (spr : Word) : Prop :=
  0 < spr.toNat % 2 ^ c.sprW ∧ c.sprMin ≤ spr.toNat % 2 ^ c.sprW

/-! Frames. -/

/-- Nothing but the named motor's context and the pin levels differs. -/
def OnlyMotorAndLevelsChanged (m : MotorId) (s t : State) : Prop :=
  (∀ k, k ≠ m → t.motor k = s.motor k) ∧ t.registry = s.registry ∧ t.timerEn = s.timerEn ∧
  (∀ p, t.pinDirAt p = s.pinDirAt p) ∧ t.rsp = s.rsp ∧ t.cfg = s.cfg ∧ t.inputs = s.inputs

/-- Nothing but the named motor's context differs. -/
def OnlyMotorChanged (m : MotorId) (s t : State) : Prop :=
  OnlyMotorAndLevelsChanged m s t ∧ ∀ p, t.pinAt p = s.pinAt p

/-- The pin levels of `t` are those of `s` with the pattern driven on the motor's four pins: IN`k` gets bit `k-1`, a pin
named twice gets the higher coil's bit, every other pin keeps its level (20_memory.md R64 to R66). -/
def DrivenLevels (x : Motor) (pat : Pattern) (s t : State) : Prop :=
  ∀ p, t.pinAt p =
    if p = x.pin4 then pat.getLsbD 3 else if p = x.pin3 then pat.getLsbD 2
    else if p = x.pin2 then pat.getLsbD 1 else if p = x.pin1 then pat.getLsbD 0 else s.pinAt p

/-- `t` holds the reset value of every piece of state (70_reset_and_hazards.md R231). -/
structure HoldsResetValues (cfg : Config) (t : State) : Prop where
  fidx : ∀ m, (t.motor m).fidx = 0#3
  bidx : ∀ m, (t.motor m).bidx = cfg.lastPlace
  remaining : ∀ m, (t.motor m).remaining = 0#32
  pos : ∀ m, (t.motor m).pos = 0#32
  flags : ∀ m, (t.motor m).fwd = false ∧ (t.motor m).bwd = false
  last : ∀ m, (t.motor m).last = 0#32
  pins : ∀ m, (t.motor m).pin1 = 0 ∧ (t.motor m).pin2 = 0 ∧ (t.motor m).pin3 = 0 ∧ (t.motor m).pin4 = 0
  spr : ∀ m, (t.motor m).spr = 0#32
  dps : ∀ m, (t.motor m).dps = 0#32
  attached : ∀ m, (t.motor m).attached = false
  mindelay : ∀ m, (t.motor m).mindelay = cfg.minDelayReset
  psave : ∀ m, (t.motor m).psave = cfg.psaveReset
  intr : ∀ m, (t.motor m).intr = cfg.intrReset
  registry : t.registry = []
  regCount : t.regCount = 0#2
  regSlots : ∀ i, t.regSlot i = 0
  timerEn : t.timerEn = false
  pinLow : ∀ p, t.pinAt p = false
  pinDirInput : ∀ p, t.pinDirAt p = false
  rspValid : t.ports.rspValid = false
  /-- "Every derived state is Idle after reset" -/
  idle : ∀ m, (t.motor m).seqState = .idle

/-! Runs of TICKs with no command between. -/

/-- The state after one TICK (unchanged where it does not complete, which never happens). -/
def State.afterTick (s : State) (now : Word) : State :=
  match exec (.tick now) s with
  | .next t => t
  | .fault _ => s
  | .refused _ => s

/-- The state after TICKs with these `now` operands, first to last. -/
def State.afterTicks (s : State) : List Word → State
  | [] => s
  | now :: nows => (s.afterTick now).afterTicks nows

/-- Whether a tick of this context evaluates the gate, and passes it: the gate is evaluated in branches F and B only
(43_speed_governor.md R186). -/
def Motor.passes (x : Motor) (c : Config) (now : Word) : Bool :=
  (x.branch == .forward || x.branch == .backward) && x.gate c now

/-- How many of these TICKs pass the gate of motor `m`. -/
def State.passCount (s : State) (m : MotorId) : List Word → Nat
  | [] => 0
  | now :: nows => (if (s.motor m).passes s.cfg now then 1 else 0) + (s.afterTick now).passCount m nows

/-! Views with one piece of state hidden, for claims that nothing reads it. -/

/-- The state with every `attached` bit cleared. -/
def State.hideAttached (s : State) : State := { s with motors := Vector.ofFn fun m => { s.motor m with attached := false } }

/-- The state with all pin levels and directions cleared. -/
def State.hidePins (s : State) : State := { s with pin := 0#64, pinDir := 0#64 }

/-- The state with `timer_en` cleared. -/
def State.hideTimer (s : State) : State := { s with timerEn := false }

/-- `i` reads nothing that `hide` hides: from states that agree outside it, an instruction stops or goes on alike, and the
next states agree outside it. -/
def NeverReads (hide : State → State) (i : Instr) : Prop :=
  ∀ s s', hide s = hide s' → ∀ t, exec i s = .next t → ∃ t', exec i s' = .next t' ∧ hide t = hide t'

/-! Runs from reset. -/

/-- The states reached from reset, with any parameters and anything presented at the ports. -/
inductive Reachable (cfg : Config) : State → Prop where
  | start (ins : List PortIn) : Reachable cfg { State.resetWith cfg with inputs := ins }
  | next (s t : State) (hs : Reachable cfg s) (ht : step s = .next t) : Reachable cfg t

/-- A safe run: `k` steps, none of which stops. -/
def SafeRun : Nat → State → Prop
  | 0, _ => True
  | k + 1, s => ∃ t, step s = .next t ∧ SafeRun k t

end Sys2Proof.Machine
end

