-- ==== Sys2Proof/Certificates/Slice0/Obligations.lean ====
section
/-! DEFINITION. The statements for the provers. Each docstring names the rule of spec/ it formalises.

`cfg` (the parameters of 00_scope.md R7) and `inputs` (the clocks the environment will present) are fields of the model's
own, DESIGN CHOICES of log entries 2 and 3: where a frame names them it says that they stay too, and cites no rule for it.

The statements quantify over the parameters that `cfg` carries (R7): where a rule's bound needs it, `Config.Legal` is a
premise, which R7's numbers meet (`ParametersHaveTheSpecsValues`). At R7's numbers `sprMin` is the 1000 of R101, `regCap` the 3
of R110, `fullTurn` and `turnNum` are `FULL_TURN` and `TURN_NUM`, `lastPlace` is 7, `zextLow n` and `sextWrap n` keep the
whole place, `seqRead` reads the whole entry and `OperandsExist` holds of every event (`FieldsKeepTheirWidth`). What a field of
another width does is the model's choice, log entry 8. -/

open Sys2Proof Sys2Proof.Machine

/-! Encoding. -/

/-- The fourteen worked encodings of 30_encoding.md R104, as the host numbers a table word. -/
def Obligations.WorkedEncodingsDecode : Prop :=
  decodeTableWord 64 0x1000030D40083105 = some (.attach 0 200000#32 2 3 4 5) ∧
  decodeTableWord 64 0x1C001F187E28B30D = some (.attach 3 2037886#32 10 11 12 13) ∧
  decodeTableWord 64 0x2400000000000000 = some (.detach 1) ∧
  decodeTableWord 64 0x3800000000000001 = some (.psave 2 true) ∧
  decodeTableWord 64 0x4000000000000001 = some (.intr 0 true) ∧
  decodeTableWord 64 0x50000000055D4A80 = some (.setpos 0 90000000#32) ∧
  decodeTableWord 64 0x54000000FD515AC0 = some (.setpos 1 (BitVec.ofInt 32 (-45000000))) ∧
  decodeTableWord 64 0x6C00000000000000 = some (.setorg 3) ∧
  decodeTableWord 64 0x7000000000000000 = some (.getpos 0) ∧
  decodeTableWord 64 0x80000000000003E8 = some (.setspd 0 1000#32) ∧
  decodeTableWord 64 0x9000000000000032 = some (.step 0 50#32) ∧
  decodeTableWord 64 0x90000000FFFFFFFF = some (.step 0 (BitVec.ofInt 32 (-1))) ∧
  decodeTableWord 64 0xA800000000000000 = some (.ismov 2) ∧
  decodeTableWord 64 0xB000000000000000 = some (.stop 0)

/-- No bit of an encoding is dropped: every instruction, with every operand value, is read back from its port word. -/
def Obligations.DecodeInvertsEncode : Prop := ∀ i : Instr, decode (encode i) = .ok i

/-- Every port word that is an instruction is that instruction's only encoding. -/
def Obligations.EncodeInvertsDecode : Prop := ∀ (w : Wire) (i : Instr), decode w = .ok i → encode i = w

/-- R84: a word is the command of a row exactly when `(w & mask) = match`. -/
def Obligations.CommandIffMatchesItsRow : Prop :=
  ∀ w : CmdWord, ∀ r ∈ opTable,
    (w &&& r.mask = r.mtch ↔ ∃ i, decodeCommand w = .ok i ∧ i.mnemonic = r.mnemonic)

/-- R100: which words are illegal, and that an illegal command changes nothing and answers nothing; with a TICK in the same
clock (R75, R206) the TICK's effect is all there is. -/
def Obligations.IllegalWordIsIgnored : Prop :=
  (∀ w : CmdWord, (∀ r ∈ opTable, w &&& r.mask ≠ r.mtch) ↔
    ((w.extractLsb' 60 4).toNat = 0 ∨ 12 ≤ (w.extractLsb' 60 4).toNat ∨ w.extractLsb' 56 2 ≠ 0#2 ∨
     ((w.extractLsb' 60 4).toNat ∈ [2, 6, 7, 10, 11] ∧ w.extractLsb' 0 56 ≠ 0#56) ∨
     ((w.extractLsb' 60 4).toNat ∈ [5, 8, 9] ∧ w.extractLsb' 32 24 ≠ 0#24) ∨
     ((w.extractLsb' 60 4).toNat ∈ [3, 4] ∧ w.extractLsb' 1 55 ≠ 0#55))) ∧
  (∀ r ∈ opTable, (0#64 : CmdWord) &&& r.mask ≠ r.mtch) ∧
  (∀ (s : State) (c : PortIn) (cs : List PortIn), s.inputs = c :: cs → c.rst = false → c.tick = false →
    c.cmdValid = true → (∀ r ∈ opTable, c.cmdWord &&& r.mask ≠ r.mtch) →
    step s = .next { s with inputs := cs, rsp := none }) ∧
  (∀ (s : State) (c : PortIn) (cs : List PortIn), s.inputs = c :: cs → c.rst = false → c.tick = true →
    c.cmdValid = true → (∀ r ∈ opTable, c.cmdWord &&& r.mask ≠ r.mtch) →
    step s = exec (.tick c.nowUs) { s with inputs := cs, rsp := none })

/-- R85: the TICK ports carry an event exactly at match 0x100000000, mask 0x100000000, and its operand is `now_us`. (The last
clause rests on log entry 9, a DESIGN CHOICE of the model: a table word of at most 40 bits is the TICK pattern.) -/
def Obligations.TickPortsDecode : Prop :=
  (∀ w : TickWord, w &&& 0x100000000#33 = 0x100000000#33 → decodeTick w = .ok (.tick (w.extractLsb' 0 32))) ∧
  (∀ w : TickWord, w &&& 0x100000000#33 ≠ 0x100000000#33 → decodeTick w = .error .noTick) ∧
  decodeTableWord 40 0x100001388 = some (.tick 5000#32)

/-- R103: the expansions of the pseudo-operations, ATTACHS and SETPOSD where the product fits the operand (outside it the
expansion is the model's choice, log entry 15, and nothing is stated). -/
def Obligations.PseudoOperationsExpand : Prop :=
  (∀ m udeg, (Pseudo.setabspos m udeg).expand = [encode (.setpos m udeg)]) ∧
  (∀ m steps p1 p2 p3 p4, steps * 1000 < 2 ^ 32 →
    ∃ spr : Word, spr.toNat = steps * 1000 ∧
      (Pseudo.attachs m steps p1 p2 p3 p4).expand = [encode (.attach m spr p1 p2 p3 p4)]) ∧
  (∀ m deg, -2 ^ 31 ≤ deg * 1000000 → deg * 1000000 < 2 ^ 31 →
    ∃ target : Word, target.toInt = deg * 1000000 ∧ (Pseudo.setposd m deg).expand = [encode (.setpos m target)]) ∧
  (∀ now0 dt k, (Pseudo.ticks now0 dt k).expand.length = k ∧
    ∀ j < k, (Pseudo.ticks now0 dt k).expand[j]? = some (encode (.tick (now0 + BitVec.ofNat 32 j * dt)))) ∧
  (Pseudo.nop.expand = [.command 0#64] ∧ ∃ e, decode (.command 0#64) = .error e)

/-! The step. -/

/-- A step runs the decoded instruction: a clock that presents one event executes exactly it, on the state with that clock
taken and `rsp_valid` fallen (30_encoding.md R79, R80, R85). What the event names exists: at R7's values always;
`AbsentOperandsAreIllegal` says what happens otherwise. -/
def Obligations.StepRunsThePresentedEvent : Prop :=
  (∀ (s : State) (c : PortIn) (cs : List PortIn) (i : Instr), s.inputs = c :: cs → c.rst = false → c.tick = false →
    c.cmdValid = true → decode (.command c.cmdWord) = .ok i → OperandsExist s.cfg i →
    step s = exec i { s with inputs := cs, rsp := none }) ∧
  (∀ (s : State) (c : PortIn) (cs : List PortIn) (i : Instr), s.inputs = c :: cs → c.rst = false → c.cmdValid = false →
    decode (.tickPort c.tickWord) = .ok i → step s = exec i { s with inputs := cs, rsp := none }) ∧
  (∀ (s : State) (i : Instr), OperandsExist s.cfg i →
    step (s.present (encode i)) = exec i { s with rsp := none })

/-- R75: a command and a TICK in the same clock, the TICK first. That what the command names exists is R69's for motor ids and the
model's choice for pin ids and id bits (log entry 16); at R7's values it always does. -/
def Obligations.TickBeforeCommandInOneClock : Prop :=
  ∀ (s : State) (c : PortIn) (cs : List PortIn) (i : Instr), s.inputs = c :: cs → c.rst = false → c.tick = true →
    c.cmdValid = true → decodeCommand c.cmdWord = .ok i → OperandsExist s.cfg i →
    ∃ u, exec (.tick c.nowUs) { s with inputs := cs, rsp := none } = .next u ∧ step s = exec i u

/-- R10, R216: a clock that presents nothing leaves every field as it is; only the response falls (R79). -/
def Obligations.ClockWithoutEventHoldsState : Prop :=
  (∀ s : State, s.inputs = [] → step s = .next { s with rsp := none }) ∧
  (∀ (s : State) (c : PortIn) (cs : List PortIn), s.inputs = c :: cs → c.rst = false → c.tick = false →
    c.cmdValid = false → step s = .next { s with inputs := cs, rsp := none })

/-- R230, R231: a clock with `rst = 1` puts every field at its reset value, whatever events it presents. R231 gives `bidx` the value 7;
that it is `SEQ_LEN - 1` in a machine of another length is the model's choice (DESIGN CHOICE, log entry 8). -/
def Obligations.ResetClockPutsResetValues : Prop :=
  ∀ (s : State) (c : PortIn) (cs : List PortIn), s.inputs = c :: cs → c.rst = true →
    ∃ t, step s = .next t ∧ HoldsResetValues s.cfg t

/-- R231, for every value of the OPEN parameters; `State.reset` is the machine with the model's default parameters (a
DESIGN CHOICE, log entry 3), and `bidx` is `SEQ_LEN - 1` also where that is not R231's 7 (DESIGN CHOICE, log entry 8). -/
def Obligations.StateAfterResetHoldsResetValues : Prop :=
  (∀ cfg : Config, HoldsResetValues cfg (State.resetWith cfg)) ∧ State.reset = State.resetWith Config.default

/-- R97: exactly one response word for a GETPOS or ISMOV, none for any other command, for a TICK, for an idle clock. That a motor
id at or above `N_MOTORS` gets none is R69 with R100; that one of more than `MID_W` bits gets none is the model's choice
(DESIGN CHOICE, log entry 16). At R7's values every id exists. -/
def Obligations.OnlyReadsRespond : Prop :=
  ∀ (s t : State) (c : PortIn) (cs : List PortIn), s.inputs = c :: cs → step s = .next t →
    (t.rsp ≠ none ↔ c.rst = false ∧ c.cmdValid = true ∧
      ∃ m : MotorId, (m.val < s.cfg.nMotors ∧ m.val < 2 ^ s.cfg.midW) ∧
        (decodeCommand c.cmdWord = .ok (.getpos m) ∨ decodeCommand c.cmdWord = .ok (.ismov m)))

/-- R79: the output ports show the fields, `cmd_ready` is constant 1; `rsp_valid` and `rsp_data` show the response that the last
clock's GETPOS or ISMOV put into `State.rsp` (that this field is an Option, `some v` while `rsp_valid = 1` with
`rsp_data = v`, is the model's form, log entry 6). -/
def Obligations.OutputPortsShowFields : Prop :=
  ∀ s : State, s.ports.cmdReady = true ∧ s.ports.timerEn = s.timerEn ∧
    (∀ p : PinId, s.ports.pinLevel.getLsbD p = s.pinAt p ∧ s.ports.pinDir.getLsbD p = s.pinDirAt p) ∧
    s.ports.rspValid = s.rsp.isSome ∧ s.ports.rspData = s.rsp

/-! Which operations complete. -/

/-- R200, R101: no event ever faults; every operation goes on to a next state, whatever the state, but for an ATTACH with
`spr = 0` (U1) or `spr < 1000` (`SPR_MIN`, U2), which the spec gives to the model as a refusal. -/
def Obligations.EveryLegalOperationCompletes : Prop :=
  (∀ (i : Instr) (s : State), (∀ m spr p1 p2 p3 p4, i = .attach m spr p1 p2 p3 p4 → AttachAccepts s.cfg spr) →
    ∃ t, exec i s = .next t) ∧
  (∀ (m : MotorId) (spr : Word) (p1 p2 p3 p4 : PinId) (s : State), ¬ AttachAccepts s.cfg spr →
    exec (.attach m spr p1 p2 p3 p4) s = .refused .attachSprBelowMinimum)

/-- R200 over runs: clocks that present no ATTACH with `spr < 1000` (or 0) never stop the machine. (A clock presents its command
only with `rst = 0` and `cmd_valid = 1`, R79.) -/
def Obligations.LegalRunsAreSafe : Prop :=
  ∀ (k : Nat) (s : State),
    (∀ c ∈ s.inputs, c.rst = false → c.cmdValid = true → ∀ m spr p1 p2 p3 p4,
      decodeCommand c.cmdWord = .ok (.attach m spr p1 p2 p3 p4) → AttachAccepts s.cfg spr) →
    SafeRun k s

/-! The registry: ATTACH and DETACH. -/

/-- R112, R110, R113, R115: every write of ATTACH, and that nothing else is written. R112 writes `spr` itself; that the field, `v`, is
`spr` modulo `2^SPR_W` where `SPR_W` is not 32 is the model's choice (DESIGN CHOICE, log entry 8). -/
def Obligations.AttachBindsAndRegisters : Prop :=
  ∀ (m : MotorId) (spr : Word) (p1 p2 p3 p4 : PinId) (s : State), s.cfg.Legal → AttachAccepts s.cfg spr →
    ∃ t, exec (.attach m spr p1 p2 p3 p4) s = .next t ∧
      (∃ v d : Word, v.toNat = spr.toNat % 2 ^ s.cfg.sprW ∧ d.toNat = s.cfg.turnNum / v.toNat ∧
        t.motor m = { s.motor m with
          pin1 := p1, pin2 := p2, pin3 := p3, pin4 := p4, spr := v, dps := d, attached := true }) ∧
      (∀ k, k ≠ m → t.motor k = s.motor k) ∧
      (∀ p, t.pinDirAt p = (p == p1 || p == p2 || p == p3 || p == p4 || s.pinDirAt p)) ∧
      (m ∈ s.registry → t.registry = s.registry) ∧
      (m ∉ s.registry → s.cfg.regCap ≤ s.registry.length → t.registry = s.registry) ∧
      (m ∉ s.registry → s.registry.length < s.cfg.regCap → t.registry = s.registry ++ [m]) ∧
      t.timerEn = true ∧ (∀ p, t.pinAt p = s.pinAt p) ∧ t.rsp = s.rsp ∧ t.cfg = s.cfg ∧ t.inputs = s.inputs

/-- R113: the step angle is the quotient rounded down, and it lies in 1..FULL_TURN for every legal `spr` (R24). The operand modulo
`2^SPR_W` is the model's choice where `SPR_W` is not 32 (DESIGN CHOICE, log entry 8). -/
def Obligations.StepAngleRoundsDown : Prop :=
  ∀ (m : MotorId) (spr : Word) (p1 p2 p3 p4 : PinId) (s : State), s.cfg.Legal → AttachAccepts s.cfg spr →
    ∃ t, exec (.attach m spr p1 p2 p3 p4) s = .next t ∧
      (t.motor m).spr.toNat = spr.toNat % 2 ^ s.cfg.sprW ∧
      (t.motor m).dps.toNat * (t.motor m).spr.toNat ≤ s.cfg.turnNum ∧
      s.cfg.turnNum < ((t.motor m).dps.toNat + 1) * (t.motor m).spr.toNat ∧
      1 ≤ (t.motor m).dps.toNat ∧ (t.motor m).dps.toNat ≤ s.cfg.fullTurn

/-- R116: DETACH takes the motor out of the registry, clears `attached`, and writes nothing else. -/
def Obligations.DetachUnregisters : Prop :=
  ∀ (m : MotorId) (s : State), ∃ t, exec (.detach m) s = .next t ∧
    t.motor m = { s.motor m with attached := false } ∧
    (∀ k, k ≠ m → t.motor k = s.motor k) ∧
    (m ∉ s.registry → t.registry = s.registry) ∧
    (∀ pre post, s.registry = pre ++ m :: post → m ∉ pre → t.registry = pre ++ post) ∧
    t.timerEn = s.timerEn ∧ (∀ p, t.pinAt p = s.pinAt p) ∧ (∀ p, t.pinDirAt p = s.pinDirAt p) ∧
    t.rsp = s.rsp ∧ t.cfg = s.cfg ∧ t.inputs = s.inputs

/-- R110, R111 on the hardware image `reg_count`, `REG[0..2]`: an add writes the slot at `reg_count`, a remove shifts the
slots above down and zeroes the last one. (The image has three slots, so an add is stated for `REG_CAP = 3`.) -/
def Obligations.RegistryImageFollowsAddAndRemove : Prop :=
  (∀ (m : MotorId) (spr : Word) (p1 p2 p3 p4 : PinId) (s : State), s.cfg.regCap = 3 → s.registry.length ≤ 3 →
    AttachAccepts s.cfg spr →
    ∃ t, exec (.attach m spr p1 p2 p3 p4) s = .next t ∧
      (m ∈ s.registry → t.regCount = s.regCount ∧ ∀ i, t.regSlot i = s.regSlot i) ∧
      (m ∉ s.registry → s.regCount = 3#2 → t.regCount = s.regCount ∧ ∀ i, t.regSlot i = s.regSlot i) ∧
      (m ∉ s.registry → s.regCount ≠ 3#2 → t.regCount = s.regCount + 1#2 ∧
        ∀ i : Fin 3, t.regSlot i = if i.val = s.regCount.toNat then m else s.regSlot i)) ∧
  (∀ (m : MotorId) (s t : State), s.registry.length ≤ 3 → s.registry.Nodup → exec (.detach m) s = .next t →
    (m ∉ s.registry → t.regCount = s.regCount ∧ ∀ i, t.regSlot i = s.regSlot i) ∧
    (∀ j : Fin 3, j.val < s.regCount.toNat → s.regSlot j = m →
      t.regCount + 1#2 = s.regCount ∧
      (∀ i : Fin 3, i < j → t.regSlot i = s.regSlot i) ∧
      (∀ i i' : Fin 3, j ≤ i → i'.val = i.val + 1 → i'.val < s.regCount.toNat → t.regSlot i = s.regSlot i') ∧
      (∀ i : Fin 3, s.regCount.toNat ≤ i.val + 1 → t.regSlot i = 0)))

/-- R114, R201: with three other motors registered an ATTACH does everything but the add, and no train of TICKs ever
changes that motor's context. The operand modulo `2^SPR_W` is the model's choice where `SPR_W` is not 32 (DESIGN CHOICE, log entry 8). -/
def Obligations.FourthMotorIsInert : Prop :=
  ∀ (m : MotorId) (spr : Word) (p1 p2 p3 p4 : PinId) (s : State), AttachAccepts s.cfg spr →
    s.cfg.regCap ≤ s.registry.length → m ∉ s.registry →
    ∃ t, exec (.attach m spr p1 p2 p3 p4) s = .next t ∧ t.registry = s.registry ∧ (t.motor m).attached = true ∧
      (t.motor m).spr.toNat = spr.toNat % 2 ^ s.cfg.sprW ∧ (t.motor m).pin1 = p1 ∧ (t.motor m).pin2 = p2 ∧ (t.motor m).pin3 = p3 ∧
      (t.motor m).pin4 = p4 ∧ ∀ nows, (t.afterTicks nows).motor m = t.motor m

/-! Modes, speed, requests, position. -/

/-- R190, R191: PSAVE and INTR each write their flag and nothing else. -/
def Obligations.ModeCommandsWriteTheirFlag : Prop :=
  ∀ (m : MotorId) (en : Bool) (s : State),
    (∃ t, exec (.psave m en) s = .next t ∧ t.motor m = { s.motor m with psave := en } ∧ OnlyMotorChanged m s t) ∧
    (∃ t, exec (.intr m en) s = .next t ∧ t.motor m = { s.motor m with intr := en } ∧ OnlyMotorChanged m s t)

/-- R185: SETSPD writes `mindelay` and nothing else. R185 writes `us` itself; that the field, `v`, is `us` modulo `2^TS_W` where
`TS_W` is not 32 is the model's choice (DESIGN CHOICE, log entry 8). -/
def Obligations.SetspdWritesThreshold : Prop :=
  ∀ (m : MotorId) (us : Word) (s : State),
    ∃ t, exec (.setspd m us) s = .next t ∧
      (∃ v : Word, v.toNat = us.toNat % 2 ^ s.cfg.tsW ∧ t.motor m = { s.motor m with mindelay := v }) ∧ OnlyMotorChanged m s t

/-- R160: STEP overwrites `remaining` when the motor is interruptible or idle; otherwise nothing at all is written. R160 writes
`wrap_32(n)`; that the field, `v`, is the balanced remainder modulo `2^STEPS_W` where `STEPS_W` is not 32 is the model's choice
(DESIGN CHOICE, log entry 8). -/
def Obligations.StepOverwritesOrIsDropped : Prop :=
  ∀ (m : MotorId) (n : Word) (s : State), s.cfg.Legal →
    ∃ t, exec (.step m n) s = .next t ∧
      ((s.motor m).intr = true ∨ (s.motor m).remaining = 0#32 →
        (∃ v : Word, v.toInt = n.toInt.bmod (2 ^ s.cfg.stepsW) ∧ t.motor m = { s.motor m with remaining := v }) ∧
        OnlyMotorChanged m s t) ∧
      (¬ ((s.motor m).intr = true ∨ (s.motor m).remaining = 0#32) → t = s)

/-- R163: SETPOS forms the exact product, divides once rounding toward zero, and then is a STEP (R160) with that count, of which
the wrap loses nothing when `pos` and `spr` are in their fields' ranges, as at R7's widths they always are. R163 reads
`sint_32(target)` and writes `wrap_32`; that the target, `g`, is read in `POS_W` bits and the count wrapped to `STEPS_W` bits
where these are not 32 is the model's choice (DESIGN CHOICE, log entry 8). -/
def Obligations.SetposRequestsTheQuotient : Prop :=
  ∀ (m : MotorId) (target : Word) (s : State), s.cfg.Legal →
    ∃ t, exec (.setpos m target) s = .next t ∧
      ((s.motor m).intr = true ∨ (s.motor m).remaining = 0#32 →
        ∃ (g n : Int) (v : Word), g = target.toInt.bmod (2 ^ s.cfg.posW) ∧
          n = ((g - (s.motor m).pos.toInt) * (s.motor m).spr.toNat).tdiv s.cfg.turnNum ∧
          v.toInt = n.bmod (2 ^ s.cfg.stepsW) ∧
          (-2 ^ (s.cfg.posW - 1) ≤ (s.motor m).pos.toInt → (s.motor m).pos.toInt < 2 ^ (s.cfg.posW - 1) →
            (s.motor m).spr.toNat < 2 ^ s.cfg.sprW → v.toInt = n) ∧
          t.motor m = { s.motor m with remaining := v } ∧ OnlyMotorChanged m s t) ∧
      (¬ ((s.motor m).intr = true ∨ (s.motor m).remaining = 0#32) → t = s)

/-- R165: SETORG zeroes the position and writes nothing else. -/
def Obligations.SetorgZeroesPosition : Prop :=
  ∀ (m : MotorId) (s : State),
    ∃ t, exec (.setorg m) s = .next t ∧ t.motor m = { s.motor m with pos := 0#32 } ∧ OnlyMotorChanged m s t

/-- R168: STOP zeroes `remaining` whatever `intr` is, writes nothing else, and an ISMOV right after it answers 0. -/
def Obligations.StopCancelsPendingSteps : Prop :=
  ∀ (m : MotorId) (s : State),
    ∃ t, exec (.stop m) s = .next t ∧ t.motor m = { s.motor m with remaining := 0#32 } ∧ OnlyMotorChanged m s t ∧
      ∃ u, exec (.ismov m) t = .next u ∧ u.rsp = some 0#32

/-- R166, R167: GETPOS and ISMOV answer, and write no state. -/
def Obligations.ReadsAnswerAndChangeNothing : Prop :=
  ∀ (m : MotorId) (s : State),
    exec (.getpos m) s = .next { s with rsp := some (s.motor m).pos } ∧
    exec (.ismov m) s = .next { s with rsp := some (if (s.motor m).remaining = 0#32 then 0#32 else 1#32) }

/-! The TICK. -/

/-- R119: one motor tick for every registered motor, in registry order, all with the same `now`. -/
def Obligations.TickVisitsRegistryInOrder : Prop :=
  ∀ (now : Word) (s : State),
    exec (.tick now) s = .next (s.registry.foldl (fun u k => motorTick k now u) s)

/-- R119: each registered motor is ticked exactly once, as if it were alone; the others are not ticked. -/
def Obligations.EachRegisteredMotorTickedOnce : Prop :=
  ∀ (now : Word) (s : State), s.registry.Nodup →
    ∃ t, exec (.tick now) s = .next t ∧
      ∀ k, (k ∈ s.registry → t.motor k = (motorTick k now s).motor k) ∧ (k ∉ s.registry → t.motor k = s.motor k)

/-- R64, R65: applying a pattern gives IN`k` bit `k-1`, the four writes in the order IN1 to IN4, and writes nothing else. -/
def Obligations.ApplyDrivesTheFourCoils : Prop :=
  ∀ (m : MotorId) (pat : Pattern) (s : State),
    DrivenLevels (s.motor m) pat s (s.applyPattern m pat) ∧ (s.applyPattern m pat).motor m = s.motor m ∧
    OnlyMotorAndLevelsChanged m s (s.applyPattern m pat)

/-- R66, R119: the pins of the motor last in the registry end a TICK at the levels its own motor tick leaves. -/
def Obligations.LastRegisteredMotorWinsSharedPins : Prop :=
  ∀ (now : Word) (s : State) (ms : List MotorId) (m : MotorId), s.registry = ms ++ [m] → m ∉ ms →
    (s.motor m).branch ≠ .idle →
    ∃ t, exec (.tick now) s = .next t ∧
      ∀ p ∈ [(s.motor m).pin1, (s.motor m).pin2, (s.motor m).pin3, (s.motor m).pin4],
        t.pinAt p = (motorTick m now s).pinAt p

/-- R134: the power saver's branch drives the four pins low and writes nothing else, whatever the active flags are. -/
def Obligations.PowerSaverTickDrivesLow : Prop :=
  ∀ (m : MotorId) (now : Word) (s : State), (s.motor m).psave = true → (s.motor m).remaining = 0#32 →
    (motorTick m now s).motor m = s.motor m ∧ OnlyMotorAndLevelsChanged m s (motorTick m now s) ∧
    DrivenLevels (s.motor m) 0#4 s (motorTick m now s)

/-- R135: the idle branch is taken exactly with the power saver off, nothing pending and no active flag, and writes
nothing, not even the pins. -/
def Obligations.IdleTickWritesNothing : Prop :=
  ∀ (m : MotorId) (now : Word) (s : State),
    ((s.motor m).branch = .idle ↔ (s.motor m).psave = false ∧ (s.motor m).remaining = 0#32 ∧
      (s.motor m).fwd = false ∧ (s.motor m).bwd = false) ∧
    ((s.motor m).branch = .idle → motorTick m now s = s)

/-- R132, R136, R137, R141: the forward branch, all three ways it ends. The clause about `pos` is the model's choice (DESIGN
CHOICE, log entry 5) outside R12's premise (`0 <= pos < FULL_TURN`, `dps <= FULL_TURN`): R12 gives no result there, and the
model takes a sum that fits the field as it is, corrected once; of a sum that does not fit nothing is said. States reached
with legal parameters meet the premise (`EveryStepKeepsInvariant`). Other widths than R7's: log entry 8. -/
def Obligations.ForwardTick : Prop :=
  ∀ (m : MotorId) (now : Word) (s : State),
    ¬ ((s.motor m).psave = true ∧ (s.motor m).remaining = 0#32) →
    ((s.motor m).fwd = true ∨ ((s.motor m).bwd = false ∧ 0 < (s.motor m).remaining.toInt)) →
    OnlyMotorAndLevelsChanged m s (motorTick m now s) ∧
    ((now - (s.motor m).last).toNat % 2 ^ s.cfg.tsW < (s.motor m).mindelay.toNat →
      (motorTick m now s).motor m = { s.motor m with fwd := true } ∧
      DrivenLevels (s.motor m) (s.seqRead (s.motor m).fidx) s (motorTick m now s)) ∧
    ((s.motor m).mindelay.toNat ≤ (now - (s.motor m).last).toNat % 2 ^ s.cfg.tsW → (s.motor m).fidx ≠ s.cfg.lastPlace →
      (motorTick m now s).motor m =
        { s.motor m with fwd := true, last := zextLow s.cfg.tsW now, fidx := (s.motor m).fidx + 1#3 } ∧
      DrivenLevels (s.motor m) (s.seqRead ((s.motor m).fidx + 1#3)) s (motorTick m now s)) ∧
    ((s.motor m).mindelay.toNat ≤ (now - (s.motor m).last).toNat % 2 ^ s.cfg.tsW → (s.motor m).fidx = s.cfg.lastPlace →
      (∃ r v : Word, (motorTick m now s).motor m =
          { s.motor m with fwd := false, last := zextLow s.cfg.tsW now, fidx := 0#3, remaining := r, pos := v } ∧
        (s.cfg.Legal → r.toInt = ((s.motor m).remaining.toInt - 1).bmod (2 ^ s.cfg.stepsW)) ∧
        (s.cfg.Legal → ∀ z : Int, z = (s.motor m).pos.toInt + (s.motor m).dps.toNat →
          -2 ^ (s.cfg.posW - 1) ≤ z → z < 2 ^ (s.cfg.posW - 1) →
          v.toInt = if s.cfg.fullTurn ≤ z then z - s.cfg.fullTurn else if z < 0 then z + s.cfg.fullTurn else z)) ∧
      DrivenLevels (s.motor m) (s.seqRead s.cfg.lastPlace) s (motorTick m now s))

/-- R133, R139, R140, R141: the backward branch, all three ways it ends. The clause about `pos` is the model's choice (DESIGN
CHOICE, log entry 5) outside R12's premise (`0 <= pos < FULL_TURN`, `dps <= FULL_TURN`), as in `ForwardTick`: a difference
that fits the field is taken as it is, corrected once, and of one that does not fit nothing is said. Other widths than R7's:
log entry 8. -/
def Obligations.BackwardTick : Prop :=
  ∀ (m : MotorId) (now : Word) (s : State),
    ¬ ((s.motor m).psave = true ∧ (s.motor m).remaining = 0#32) →
    (s.motor m).fwd = false → ((s.motor m).bwd = true ∨ (s.motor m).remaining.toInt < 0) →
    OnlyMotorAndLevelsChanged m s (motorTick m now s) ∧
    ((now - (s.motor m).last).toNat % 2 ^ s.cfg.tsW < (s.motor m).mindelay.toNat →
      (motorTick m now s).motor m = { s.motor m with bwd := true } ∧
      DrivenLevels (s.motor m) (s.seqRead (s.motor m).bidx) s (motorTick m now s)) ∧
    ((s.motor m).mindelay.toNat ≤ (now - (s.motor m).last).toNat % 2 ^ s.cfg.tsW → (s.motor m).bidx ≠ 0#3 →
      (motorTick m now s).motor m =
        { s.motor m with bwd := true, last := zextLow s.cfg.tsW now, bidx := (s.motor m).bidx - 1#3 } ∧
      DrivenLevels (s.motor m) (s.seqRead ((s.motor m).bidx - 1#3)) s (motorTick m now s)) ∧
    ((s.motor m).mindelay.toNat ≤ (now - (s.motor m).last).toNat % 2 ^ s.cfg.tsW → (s.motor m).bidx = 0#3 →
      (∃ r v : Word, (motorTick m now s).motor m =
          { s.motor m with bwd := false, last := zextLow s.cfg.tsW now, bidx := s.cfg.lastPlace, remaining := r, pos := v } ∧
        (s.cfg.Legal → r.toInt = ((s.motor m).remaining.toInt + 1).bmod (2 ^ s.cfg.stepsW)) ∧
        (s.cfg.Legal → ∀ z : Int, z = (s.motor m).pos.toInt - (s.motor m).dps.toNat →
          -2 ^ (s.cfg.posW - 1) ≤ z → z < 2 ^ (s.cfg.posW - 1) →
          v.toInt = if s.cfg.fullTurn ≤ z then z - s.cfg.fullTurn else if z < 0 then z + s.cfg.fullTurn else z)) ∧
      DrivenLevels (s.motor m) (s.seqRead 0#3) s (motorTick m now s))

/-- R181, R182: the gate compares the modular difference, unsigned; equality passes; with `mindelay = 0` it always passes. R181's
difference is modulo `2^32`; that it is modulo `2^TS_W` where `TS_W` is not 32 is the model's choice (DESIGN CHOICE, log entry 8). -/
def Obligations.GateComparesModularDifference : Prop :=
  ∀ (c : Config) (x : Motor) (now : Word), c.Legal →
    (x.gate c now = true ↔ x.mindelay.toNat ≤ (now.toNat + 2 ^ 32 - x.last.toNat) % 2 ^ c.tsW) ∧
    (x.mindelay = 0#32 → x.gate c now = true)

/-- R183: `last` is written at every pass, with the TICK's `now`, and at nothing else; without a pass no cursor, no count
and no position moves either (R182, R143). R183 writes `now` itself; that the field is its low `TS_W` bits where `TS_W` is not 32
is the model's choice (DESIGN CHOICE, log entry 8). -/
def Obligations.LastIsWrittenAtEveryPassOnly : Prop :=
  (∀ (now : Word) (s t : State) (m : MotorId), s.registry.Nodup → exec (.tick now) s = .next t →
    (m ∈ s.registry → (s.motor m).passes s.cfg now = true → (t.motor m).last = zextLow s.cfg.tsW now) ∧
    (¬ (m ∈ s.registry ∧ (s.motor m).passes s.cfg now = true) →
      (t.motor m).last = (s.motor m).last ∧ (t.motor m).fidx = (s.motor m).fidx ∧
      (t.motor m).bidx = (s.motor m).bidx ∧ (t.motor m).remaining = (s.motor m).remaining ∧
      (t.motor m).pos = (s.motor m).pos)) ∧
  (∀ (i : Instr) (s t : State) (m : MotorId), (∀ now, i ≠ .tick now) → exec i s = .next t →
    (t.motor m).last = (s.motor m).last)

/-- R184: two passes of one motor's gate are never closer than `mindelay` in `now`, whatever TICKs come between. The difference
modulo `2^TS_W` is the model's choice where `TS_W` is not 32 (DESIGN CHOICE, log entry 8). -/
def Obligations.PassesAreMindelayApart : Prop :=
  ∀ (s : State) (m : MotorId) (now1 now2 : Word) (nows : List Word), s.registry.Nodup → m ∈ s.registry →
    (s.motor m).passes s.cfg now1 = true → (s.afterTick now1).passCount m nows = 0 →
    ((((s.afterTick now1).afterTicks nows).motor m).passes s.cfg now2 = true) →
    (s.motor m).mindelay.toNat ≤ (now2 - now1).toNat % 2 ^ s.cfg.tsW

/-- R142: a TICK moves at most one cursor of a motor, by one place (an advance from the end place goes to the start). That the last
place is `SEQ_LEN - 1` where that is not 7 is the model's choice (DESIGN CHOICE, log entry 8). -/
def Obligations.CursorMovesAtMostOncePerTick : Prop :=
  ∀ (now : Word) (s : State) (m : MotorId), s.registry.Nodup →
    ∃ t, exec (.tick now) s = .next t ∧
      (((t.motor m).fidx = (s.motor m).fidx ∧ (t.motor m).bidx = (s.motor m).bidx) ∨
       ((t.motor m).fidx = (if (s.motor m).fidx = s.cfg.lastPlace then 0#3 else (s.motor m).fidx + 1#3) ∧
        (t.motor m).bidx = (s.motor m).bidx) ∨
       ((t.motor m).fidx = (s.motor m).fidx ∧
        (t.motor m).bidx = (if (s.motor m).bidx = 0#3 then s.cfg.lastPlace else (s.motor m).bidx - 1#3)))

/-- R143: step count and position change only at a completion, by one step together. The last place and the wrap of the count where
`SEQ_LEN` is not 8 or `STEPS_W` not 32 are the model's choice (DESIGN CHOICE, log entry 8). -/
def Obligations.PositionMovesOneStepPerCompletion : Prop :=
  ∀ (now : Word) (s t : State) (m : MotorId), s.Inv → exec (.tick now) s = .next t →
    ((t.motor m).remaining = (s.motor m).remaining ∧ (t.motor m).pos = (s.motor m).pos) ∨
    ((s.motor m).fidx = s.cfg.lastPlace ∧ (t.motor m).fidx = 0#3 ∧
      (t.motor m).remaining.toInt = ((s.motor m).remaining.toInt - 1).bmod (2 ^ s.cfg.stepsW) ∧
      (t.motor m).pos.toInt = ((s.motor m).pos.toInt + (s.motor m).dps.toNat) % s.cfg.fullTurn) ∨
    ((s.motor m).bidx = 0#3 ∧ (t.motor m).bidx = s.cfg.lastPlace ∧
      (t.motor m).remaining.toInt = ((s.motor m).remaining.toInt + 1).bmod (2 ^ s.cfg.stepsW) ∧
      (t.motor m).pos.toInt = ((s.motor m).pos.toInt - (s.motor m).dps.toNat) % s.cfg.fullTurn)

/-- R35: the derived state is Idle exactly when nothing is pending and no sub-sequence is in progress. -/
def Obligations.IdleMeansNothingPendingOrActive : Prop :=
  ∀ x : Motor, x.seqState = .idle ↔ x.remaining = 0#32 ∧ x.fwd = false ∧ x.bwd = false

/-- R149: how the derived state moves in a motor tick, row by row. The last place is `SEQ_LEN - 1`, where that is not 7 by the model's
choice (DESIGN CHOICE, log entry 8). -/
def Obligations.SequencerStateTransitions : Prop :=
  ∀ (m : MotorId) (now : Word) (s : State), ¬ ((s.motor m).fwd = true ∧ (s.motor m).bwd = true) →
    ((s.motor m).seqState = .idle → ((motorTick m now s).motor m).seqState = .idle) ∧
    ((s.motor m).psave = true → (s.motor m).remaining = 0#32 →
      ((motorTick m now s).motor m).seqState = (s.motor m).seqState) ∧
    (¬ ((s.motor m).psave = true ∧ (s.motor m).remaining = 0#32) →
      ((s.motor m).seqState = .steppingForward →
        ((s.motor m).gate s.cfg now = false ∨ (s.motor m).fidx ≠ s.cfg.lastPlace →
          ((motorTick m now s).motor m).seqState = .steppingForward) ∧
        ((s.motor m).gate s.cfg now = true → (s.motor m).fidx = s.cfg.lastPlace →
          (0 < ((motorTick m now s).motor m).remaining.toInt → ((motorTick m now s).motor m).seqState = .steppingForward) ∧
          (((motorTick m now s).motor m).remaining.toInt < 0 → ((motorTick m now s).motor m).seqState = .steppingBackward) ∧
          (((motorTick m now s).motor m).remaining = 0#32 → ((motorTick m now s).motor m).seqState = .idle))) ∧
      ((s.motor m).seqState = .steppingBackward →
        ((s.motor m).gate s.cfg now = false ∨ (s.motor m).bidx ≠ 0#3 →
          ((motorTick m now s).motor m).seqState = .steppingBackward) ∧
        ((s.motor m).gate s.cfg now = true → (s.motor m).bidx = 0#3 →
          (0 < ((motorTick m now s).motor m).remaining.toInt → ((motorTick m now s).motor m).seqState = .steppingForward) ∧
          (((motorTick m now s).motor m).remaining.toInt < 0 → ((motorTick m now s).motor m).seqState = .steppingBackward) ∧
          (((motorTick m now s).motor m).remaining = 0#32 → ((motorTick m now s).motor m).seqState = .idle))))

/-! Whole-machine rules. -/

/-- R211, the interrupt context's column: what no TICK writes. -/
def Obligations.TickWritesOnlyItsColumn : Prop :=
  ∀ (now : Word) (s : State), ∃ t, exec (.tick now) s = .next t ∧
    (∀ m, (t.motor m).mindelay = (s.motor m).mindelay ∧ (t.motor m).psave = (s.motor m).psave ∧
      (t.motor m).intr = (s.motor m).intr ∧ (t.motor m).pin1 = (s.motor m).pin1 ∧ (t.motor m).pin2 = (s.motor m).pin2 ∧
      (t.motor m).pin3 = (s.motor m).pin3 ∧ (t.motor m).pin4 = (s.motor m).pin4 ∧ (t.motor m).spr = (s.motor m).spr ∧
      (t.motor m).dps = (s.motor m).dps ∧ (t.motor m).attached = (s.motor m).attached) ∧
    (∀ p, t.pinDirAt p = s.pinDirAt p) ∧ t.timerEn = s.timerEn ∧ t.registry = s.registry ∧ t.rsp = s.rsp ∧
    t.cfg = s.cfg ∧ t.inputs = s.inputs ∧
    (∀ p, (∀ m ∈ s.registry, p ≠ (s.motor m).pin1 ∧ p ≠ (s.motor m).pin2 ∧ p ≠ (s.motor m).pin3 ∧ p ≠ (s.motor m).pin4) →
      t.pinAt p = s.pinAt p)

/-- R121, and the writer columns of 10_state.md R21: a TICK is the only event that changes the active flags, the cursors,
`last` and the pin levels, and which commands may change each other field. -/
def Obligations.CommandsWriteOnlyTheirColumn : Prop :=
  ∀ (i : Instr) (s t : State), (∀ now, i ≠ .tick now) → exec i s = .next t →
    (∀ m, (t.motor m).fwd = (s.motor m).fwd ∧ (t.motor m).bwd = (s.motor m).bwd ∧
      (t.motor m).fidx = (s.motor m).fidx ∧ (t.motor m).bidx = (s.motor m).bidx ∧
      (t.motor m).last = (s.motor m).last) ∧
    (∀ p, t.pinAt p = s.pinAt p) ∧
    (∀ m, (t.motor m).remaining ≠ (s.motor m).remaining → i.mnemonic ∈ ["STEP", "SETPOS", "STOP"]) ∧
    (∀ m, (t.motor m).pos ≠ (s.motor m).pos → i.mnemonic = "SETORG") ∧
    (∀ m, (t.motor m).mindelay ≠ (s.motor m).mindelay → i.mnemonic = "SETSPD") ∧
    (∀ m, (t.motor m).psave ≠ (s.motor m).psave → i.mnemonic = "PSAVE") ∧
    (∀ m, (t.motor m).intr ≠ (s.motor m).intr → i.mnemonic = "INTR") ∧
    (∀ m, (t.motor m).attached ≠ (s.motor m).attached → i.mnemonic ∈ ["ATTACH", "DETACH"]) ∧
    (∀ m, ((t.motor m).pin1, (t.motor m).pin2, (t.motor m).pin3, (t.motor m).pin4, (t.motor m).spr, (t.motor m).dps) ≠
        ((s.motor m).pin1, (s.motor m).pin2, (s.motor m).pin3, (s.motor m).pin4, (s.motor m).spr, (s.motor m).dps) →
      i.mnemonic = "ATTACH") ∧
    (t.registry ≠ s.registry → i.mnemonic ∈ ["ATTACH", "DETACH"]) ∧
    (t.timerEn ≠ s.timerEn → i.mnemonic = "ATTACH") ∧
    (∀ p, t.pinDirAt p ≠ s.pinDirAt p → i.mnemonic = "ATTACH")

/-- R20: a context's next value depends on that context alone (and on whether the motor is registered), never on another
motor's fields, on the pins, on the table, or on the order of the registry. (The two machines may also differ in
the table, its width and the registry's capacity; their other parameters are the same.) -/
def Obligations.ContextsAreIndependent : Prop :=
  ∀ (i : Instr) (s1 s2 t1 t2 : State) (m : MotorId), 
    s2.cfg = { s1.cfg with seq := s2.cfg.seq, patW := s2.cfg.patW, regCap := s2.cfg.regCap } →
    s1.registry.Nodup → s2.registry.Nodup →
    s1.motor m = s2.motor m → (m ∈ s1.registry ↔ m ∈ s2.registry) →
    exec i s1 = .next t1 → exec i s2 = .next t2 → t1.motor m = t2.motor m

/-- R82: a command changes no context but that of the one motor it names. -/
def Obligations.CommandChangesOnlyItsMotor : Prop :=
  ∀ (i : Instr) (s t : State) (m k : MotorId), i.motor? = some m → k ≠ m → exec i s = .next t → t.motor k = s.motor k

/-- R25: no rule's result depends on `attached`. -/
def Obligations.AttachedIsNeverRead : Prop := ∀ i : Instr, NeverReads State.hideAttached i

/-- R37, R38: no rule reads a pin level or direction. -/
def Obligations.PinsAreNeverRead : Prop := ∀ i : Instr, NeverReads State.hidePins i

/-- R36: `timer_en` is set by ATTACH, cleared by nothing but reset, and read by no rule (so a TICK is performed whatever
its value). -/
def Obligations.TimerEnableIsSetByAttachAndNeverRead : Prop :=
  (∀ i : Instr, NeverReads State.hideTimer i) ∧
  (∀ (m : MotorId) (spr : Word) (p1 p2 p3 p4 : PinId) (s t : State),
    exec (.attach m spr p1 p2 p3 p4) s = .next t → t.timerEn = true) ∧
  (∀ s t : State, step s = .next t → s.timerEn = true →
    t.timerEn = true ∨ ∃ c cs, s.inputs = c :: cs ∧ c.rst = true)

/-- R62, R77: no event writes the Sequence Table (nor any other parameter), and a step takes exactly one clock. -/
def Obligations.ParametersAreConstant : Prop :=
  ∀ s t : State, step s = .next t → t.cfg = s.cfg ∧ t.inputs = s.inputs.tail

/-! The invariant. -/

/-- R40 to R43, R25, R38: every step keeps the invariant, from every state that meets it. -/
def Obligations.EveryStepKeepsInvariant : Prop := ∀ s t : State, s.Inv → step s = .next t → t.Inv

/-- The invariant holds right after reset, for every legal value of the parameters. -/
def Obligations.InvariantHoldsAtReset : Prop := ∀ cfg : Config, cfg.Legal → (State.resetWith cfg).Inv

/-- R40, R41, R42, R43 over whole executions: in every state reached from reset by any clocks, with any legal parameters: the corollary of the two statements above. -/
def Obligations.ReachableStatesAreWrapped : Prop :=
  ∀ (cfg : Config) (s : State), cfg.Legal → Reachable cfg s →
    s.registry.length ≤ cfg.regCap ∧ s.registry.Nodup ∧
    ∀ m, ¬ ((s.motor m).fwd = true ∧ (s.motor m).bwd = true) ∧
      (s.motor m).fidx.toNat < cfg.seqLen ∧ (s.motor m).bidx.toNat < cfg.seqLen ∧
      0 ≤ (s.motor m).pos.toInt ∧ (s.motor m).pos.toInt < cfg.fullTurn

/-! Movements. -/

/-- R148: from an Idle motor, a STEP of `N` and TICKs that pass the gate `SEQ_LEN*N` times (`8*N` at R7's length) end with nothing pending and the
position moved by exactly `N` step angles, modulo a turn; the same backward. The
machine at other lengths and widths than R7's is the model's choice (DESIGN CHOICE, log entry 8). -/
def Obligations.MovementEndsExactly : Prop :=
  (∀ (s : State) (m : MotorId) (N : Nat), s.Inv → m ∈ s.registry → (s.motor m).seqState = .idle → 0 < N → N < 2 ^ (s.cfg.stepsW - 1) →
    ∃ u, exec (.step m (BitVec.ofNat 32 N)) s = .next u ∧
      ∀ nows, u.passCount m nows = s.cfg.seqLen * N →
        ((u.afterTicks nows).motor m).remaining = 0#32 ∧ ((u.afterTicks nows).motor m).fwd = false ∧
        ((u.afterTicks nows).motor m).fidx = 0#3 ∧
        ((u.afterTicks nows).motor m).pos.toInt =
          ((s.motor m).pos.toInt + N * (s.motor m).dps.toNat) % s.cfg.fullTurn) ∧
  (∀ (s : State) (m : MotorId) (N : Nat), s.Inv → m ∈ s.registry → (s.motor m).seqState = .idle → 0 < N → N ≤ 2 ^ (s.cfg.stepsW - 1) →
    ∃ u, exec (.step m (BitVec.ofInt 32 (-(N : Int)))) s = .next u ∧
      ∀ nows, u.passCount m nows = s.cfg.seqLen * N →
        ((u.afterTicks nows).motor m).remaining = 0#32 ∧ ((u.afterTicks nows).motor m).bwd = false ∧
        ((u.afterTicks nows).motor m).bidx = s.cfg.lastPlace ∧
        ((u.afterTicks nows).motor m).pos.toInt =
          ((s.motor m).pos.toInt - N * (s.motor m).dps.toNat) % s.cfg.fullTurn)

/-- R147: after a STOP in mid sub-sequence with the power saver off, the sub-sequence finishes and one opposite step
follows: the motor rests where it was. With the power saver on, every TICK keeps the context as it stands. The
machine at other lengths and widths than R7's is the model's choice (DESIGN CHOICE, log entry 8). -/
def Obligations.StopInMidStepReturns : Prop :=
  ∀ (s : State) (m : MotorId), s.Inv → m ∈ s.registry →
    ∃ u, exec (.stop m) s = .next u ∧
      ((s.motor m).fwd = true → (s.motor m).psave = false →
        ∀ nows, u.passCount m nows = (s.cfg.seqLen - (s.motor m).fidx.toNat) + s.cfg.seqLen →
          ((u.afterTicks nows).motor m).remaining = 0#32 ∧ ((u.afterTicks nows).motor m).seqState = .idle ∧
          ((u.afterTicks nows).motor m).pos = (s.motor m).pos) ∧
      ((s.motor m).bwd = true → (s.motor m).psave = false →
        ∀ nows, u.passCount m nows = ((s.motor m).bidx.toNat + 1) + s.cfg.seqLen →
          ((u.afterTicks nows).motor m).remaining = 0#32 ∧ ((u.afterTicks nows).motor m).seqState = .idle ∧
          ((u.afterTicks nows).motor m).pos = (s.motor m).pos) ∧
      ((s.motor m).psave = true → ∀ nows, (u.afterTicks nows).motor m = u.motor m)

/-! Parameters. -/

/-- R7: every parameter by name, with its value. `Config.default` has R7's numbers and the table of 20_memory.md R63, every
record with R7's numbers is legal, the two derived ones follow, and the places of the machine's types have R7's widths. -/
def Obligations.ParametersHaveTheSpecsValues : Prop :=
  (Config.default.regCap = 3 ∧ Config.default.seqLen = 8 ∧ Config.default.patW = 4 ∧ Config.default.nMotors = 4 ∧
    Config.default.midW = 2 ∧ Config.default.nPins = 64 ∧ Config.default.pinW = 6 ∧ Config.default.tsW = 32 ∧
    Config.default.stepsW = 32 ∧ Config.default.posW = 32 ∧ Config.default.degDen = 1000000 ∧ Config.default.sprW = 32 ∧
    Config.default.sprDen = 1000 ∧ Config.default.sprMin = 1000) ∧
  Config.default.seq.toList = [0x1#4, 0x3#4, 0x2#4, 0x6#4, 0x4#4, 0xC#4, 0x8#4, 0x9#4] ∧
  (∀ c : Config, c.seqLen = 8 → c.patW = 4 → c.nMotors = 4 → c.midW = 2 → c.nPins = 64 → c.pinW = 6 → c.tsW = 32 →
    c.stepsW = 32 → c.posW = 32 → c.degDen = 1000000 → c.sprW = 32 → c.sprDen = 1000 → c.sprMin = 1000 →
    c.Legal ∧ c.fullTurn = 360000000 ∧ c.turnNum = 360000000000) ∧
  (∀ c : Config, c.fullTurn = 360 * c.degDen ∧ c.turnNum = c.fullTurn * c.sprDen) ∧
  (∀ c : Config, c.seq.toList.length = 8) ∧ Cursor = BitVec 3 ∧ 2 ^ 3 = 8 ∧ Pattern = BitVec 4 ∧ MotorId = Fin (2 ^ 2) ∧
  PinId = Fin (2 ^ 6) ∧ Word = BitVec 32

/-- R69: where `N_MOTORS` is less than 4, a command that names a motor at or above it is an illegal encoding, and R100 holds
of it: no state changes and there is no response; with a TICK in the same clock the TICK's effect is all there is. (That the
same holds of a pin at or above `N_PINS`, and of an id of more than `MID_W` or `PIN_W` bits, is the model's choice, log entry 16.) -/
def Obligations.AbsentOperandsAreIllegal : Prop :=
  ∀ (s : State) (c : PortIn) (cs : List PortIn) (i : Instr), s.inputs = c :: cs → c.rst = false →
    c.cmdValid = true → decodeCommand c.cmdWord = .ok i → ¬ OperandsExist s.cfg i →
    (c.tick = false → step s = .next { s with inputs := cs, rsp := none }) ∧
    (c.tick = true → step s = exec (.tick c.nowUs) { s with inputs := cs, rsp := none })

/-- 00_scope.md section 6: what a field of `n` bits keeps of a number, `uint_N` and `wrap_N`; at R7's widths it is the number's whole
32-bit pattern, a table entry is its whole place, the last place is 7, and everything that an event can name exists (R22, R82).
(That a field of another width keeps this, in a 32-bit place, is the model's choice, log entry 8.) -/
def Obligations.FieldsKeepTheirWidth : Prop :=
  (∀ (n : Nat) (v : Word), (zextLow n v).toNat = v.toNat % 2 ^ n) ∧
  (∀ (n : Nat) (z : Int), n ≤ 32 → (sextWrap n z).toInt = z.bmod (2 ^ n)) ∧
  (∀ v : Word, zextLow 32 v = v) ∧ (∀ z : Int, sextWrap 32 z = BitVec.ofInt 32 z) ∧
  (∀ (s : State) (i : Cursor), (s.seqRead i).toNat = (s.cfg.seq[i.toFin]).toNat % 2 ^ s.cfg.patW) ∧
  (∀ (s : State) (i : Cursor), s.cfg.patW = 4 → s.seqRead i = s.cfg.seq[i.toFin]) ∧
  (∀ c : Config, c.Legal → c.lastPlace.toNat = c.seqLen - 1) ∧
  (∀ (c : Config) (i : Instr), c.nMotors = 4 → c.midW = 2 → c.nPins = 64 → c.pinW = 6 → OperandsExist c i)
end

