-- ==== Sys2Proof/Laws/Bits.lean ====
section
/-! SUPPORT. Taking a concatenation apart: the lemmas behind every statement about encodings. -/

namespace Sys2Proof.Laws

theorem high_append {n m : Nat} (a : BitVec n) (b : BitVec m) : (a ++ b).extractLsb' m n = a := by
  refine BitVec.eq_of_getLsbD_eq fun i hi => ?_
  rw [BitVec.getLsbD_extractLsb', BitVec.getLsbD_append]
  simp [hi]

theorem low_append {n m : Nat} (a : BitVec n) (b : BitVec m) : (a ++ b).extractLsb' 0 m = b := by
  refine BitVec.eq_of_getLsbD_eq fun i hi => ?_
  rw [BitVec.getLsbD_extractLsb', BitVec.getLsbD_append]
  simp [hi]

/-- A slice inside the low part. -/
theorem slice_low {n m : Nat} (a : BitVec n) (b : BitVec m) (lo len : Nat) (h : lo + len ≤ m) :
    (a ++ b).extractLsb' lo len = b.extractLsb' lo len := by
  refine BitVec.eq_of_getLsbD_eq fun i hi => ?_
  rw [BitVec.getLsbD_extractLsb', BitVec.getLsbD_extractLsb', BitVec.getLsbD_append]
  simp [hi, show lo + i < m by omega]

/-- A slice inside the high part. -/
theorem slice_high {n m : Nat} (a : BitVec n) (b : BitVec m) (lo len : Nat) (h : m ≤ lo) :
    (a ++ b).extractLsb' lo len = a.extractLsb' (lo - m) len := by
  refine BitVec.eq_of_getLsbD_eq fun i hi => ?_
  rw [BitVec.getLsbD_extractLsb', BitVec.getLsbD_extractLsb', BitVec.getLsbD_append]
  simp [hi, show ¬ lo + i < m by omega, show lo + i - m = lo - m + i by omega]

/-- Concatenations of equal halves. -/
theorem append_inj {n m : Nat} {a c : BitVec n} {b d : BitVec m} : a ++ b = c ++ d ↔ a = c ∧ b = d := by
  constructor
  · intro e
    have e1 := congrArg (BitVec.extractLsb' m n) e
    have e2 := congrArg (BitVec.extractLsb' 0 m) e
    rw [high_append, high_append] at e1
    rw [low_append, low_append] at e2
    exact ⟨e1, e2⟩
  · rintro ⟨rfl, rfl⟩
    rfl

/-- A word is its two halves. -/
theorem append_slices (v : BitVec 64) : v = v.extractLsb' 56 8 ++ v.extractLsb' 0 56 := by
  refine BitVec.eq_of_getLsbD_eq fun i hi => ?_
  rw [BitVec.getLsbD_append, BitVec.getLsbD_extractLsb', BitVec.getLsbD_extractLsb']
  by_cases h : i < 56
  · simp [h]
  · simp [h, show i - 56 < 8 by omega, show 56 + (i - 56) = i by omega]

end Sys2Proof.Laws
end

