-- ==== Sys2Proof/Laws/State.lean ====
section
/-! SUPPORT. One lemma per field per update, so that no later proof unfolds a record update. -/

namespace Sys2Proof.Machine

/-! R7's parameters. -/

/-- R7's numbers are legal parameters, whatever the capacity, the table and the OPEN reset values. -/
theorem legal_of_numbers (c : Config) (h1 : c.seqLen = 8) (h2 : c.patW = 4) (h3 : c.nMotors = 4) (h4 : c.midW = 2)
    (h5 : c.nPins = 64) (h6 : c.pinW = 6) (h7 : c.tsW = 32) (h8 : c.stepsW = 32) (h9 : c.posW = 32) (h10 : c.sprW = 32)
    (hd : c.degDen = 1000000) (hs : c.sprDen = 1000) (hm : c.sprMin = 1000) : c.Legal := by
  have := c.minDelayReset.isLt
  refine ⟨?_, ?_, ?_, ?_, ?_, ?_, ?_, ?_, ?_, ?_, ?_, ?_, ?_⟩ <;>
    simp only [Config.turnNum, Config.fullTurn, h1, h2, h3, h4, h5, h6, h7, h8, h9, h10, hd, hs, hm] <;>
    first
      | decide
      | assumption

theorem legal_default : Config.default.Legal := legal_of_numbers _ rfl rfl rfl rfl rfl rfl rfl rfl rfl rfl rfl rfl rfl

/-! Reading a context after a write of one. -/

@[simp] theorem motor_setMotor_same (s : State) (m : MotorId) (x : Motor) : (s.setMotor m x).motor m = x := by
  simp [State.motor, State.setMotor]

theorem motor_setMotor_other (s : State) (m k : MotorId) (x : Motor) (h : k ≠ m) :
    (s.setMotor m x).motor k = s.motor k := by
  have : m.val ≠ k.val := fun e => h (Fin.ext e.symm)
  simp [State.motor, State.setMotor, this]

theorem motor_setMotor (s : State) (m k : MotorId) (x : Motor) :
    (s.setMotor m x).motor k = if k = m then x else s.motor k := by
  split
  · subst k; simp
  · exact motor_setMotor_other s m k x ‹_›

@[simp] theorem motor_updMotor_same (s : State) (m : MotorId) (f : Motor → Motor) :
    (s.updMotor m f).motor m = f (s.motor m) := by simp [State.updMotor]

theorem motor_updMotor_other (s : State) (m k : MotorId) (f : Motor → Motor) (h : k ≠ m) :
    (s.updMotor m f).motor k = s.motor k := by simp [State.updMotor, motor_setMotor_other, h]

theorem motor_updMotor (s : State) (m k : MotorId) (f : Motor → Motor) :
    (s.updMotor m f).motor k = if k = m then f (s.motor m) else s.motor k := by
  simp [State.updMotor, motor_setMotor]

/-- Two writes of one context are one. -/
theorem updMotor_updMotor (s : State) (m : MotorId) (f g : Motor → Motor) :
    (s.updMotor m f).updMotor m g = s.updMotor m (g ∘ f) := by
  simp [State.updMotor, State.setMotor, State.motor]

/-- States with the same contexts and the same other fields are equal. -/
theorem State.ext_motors {s t : State} (hm : ∀ k, s.motor k = t.motor k) (hr : s.registry = t.registry)
    (ht : s.timerEn = t.timerEn) (hp : s.pin = t.pin) (hd : s.pinDir = t.pinDir) (hq : s.rsp = t.rsp)
    (hc : s.cfg = t.cfg) (hi : s.inputs = t.inputs) : s = t := by
  have : s.motors = t.motors := Vector.ext fun i h => hm ⟨i, h⟩
  cases s; cases t; simp_all

/-! A write of a context touches nothing else. -/

@[simp] theorem updMotor_registry (s : State) (m : MotorId) (f : Motor → Motor) : (s.updMotor m f).registry = s.registry := rfl
@[simp] theorem updMotor_timerEn (s : State) (m : MotorId) (f : Motor → Motor) : (s.updMotor m f).timerEn = s.timerEn := rfl
@[simp] theorem updMotor_pin (s : State) (m : MotorId) (f : Motor → Motor) : (s.updMotor m f).pin = s.pin := rfl
@[simp] theorem updMotor_pinDir (s : State) (m : MotorId) (f : Motor → Motor) : (s.updMotor m f).pinDir = s.pinDir := rfl
@[simp] theorem updMotor_rsp (s : State) (m : MotorId) (f : Motor → Motor) : (s.updMotor m f).rsp = s.rsp := rfl
@[simp] theorem updMotor_cfg (s : State) (m : MotorId) (f : Motor → Motor) : (s.updMotor m f).cfg = s.cfg := rfl
@[simp] theorem updMotor_inputs (s : State) (m : MotorId) (f : Motor → Motor) : (s.updMotor m f).inputs = s.inputs := rfl

/-! Pin writes touch one image. -/

@[simp] theorem pinWrite_motor (s : State) (p : PinId) (v : Bool) (k : MotorId) : (s.pinWrite p v).motor k = s.motor k := rfl
@[simp] theorem pinWrite_registry (s : State) (p : PinId) (v : Bool) : (s.pinWrite p v).registry = s.registry := rfl
@[simp] theorem pinWrite_timerEn (s : State) (p : PinId) (v : Bool) : (s.pinWrite p v).timerEn = s.timerEn := rfl
@[simp] theorem pinWrite_pin (s : State) (p : PinId) (v : Bool) : (s.pinWrite p v).pin = setBit s.pin p v := rfl
@[simp] theorem pinWrite_pinDir (s : State) (p : PinId) (v : Bool) : (s.pinWrite p v).pinDir = s.pinDir := rfl
@[simp] theorem pinWrite_rsp (s : State) (p : PinId) (v : Bool) : (s.pinWrite p v).rsp = s.rsp := rfl
@[simp] theorem pinWrite_cfg (s : State) (p : PinId) (v : Bool) : (s.pinWrite p v).cfg = s.cfg := rfl
@[simp] theorem pinWrite_inputs (s : State) (p : PinId) (v : Bool) : (s.pinWrite p v).inputs = s.inputs := rfl

@[simp] theorem pinDirSet_motor (s : State) (p : PinId) (k : MotorId) : (s.pinDirSet p).motor k = s.motor k := rfl
@[simp] theorem pinDirSet_registry (s : State) (p : PinId) : (s.pinDirSet p).registry = s.registry := rfl
@[simp] theorem pinDirSet_timerEn (s : State) (p : PinId) : (s.pinDirSet p).timerEn = s.timerEn := rfl
@[simp] theorem pinDirSet_pin (s : State) (p : PinId) : (s.pinDirSet p).pin = s.pin := rfl
@[simp] theorem pinDirSet_pinDir (s : State) (p : PinId) : (s.pinDirSet p).pinDir = setBit s.pinDir p true := rfl
@[simp] theorem pinDirSet_rsp (s : State) (p : PinId) : (s.pinDirSet p).rsp = s.rsp := rfl
@[simp] theorem pinDirSet_cfg (s : State) (p : PinId) : (s.pinDirSet p).cfg = s.cfg := rfl
@[simp] theorem pinDirSet_inputs (s : State) (p : PinId) : (s.pinDirSet p).inputs = s.inputs := rfl

/-! The registry's operations touch the registry only. -/

@[simp] theorem regAdd_motor (s : State) (m k : MotorId) : (s.regAdd m).motor k = s.motor k := by
  unfold State.regAdd; split_ifs <;> rfl
@[simp] theorem regAdd_timerEn (s : State) (m : MotorId) : (s.regAdd m).timerEn = s.timerEn := by
  unfold State.regAdd; split_ifs <;> rfl
@[simp] theorem regAdd_pin (s : State) (m : MotorId) : (s.regAdd m).pin = s.pin := by
  unfold State.regAdd; split_ifs <;> rfl
@[simp] theorem regAdd_pinDir (s : State) (m : MotorId) : (s.regAdd m).pinDir = s.pinDir := by
  unfold State.regAdd; split_ifs <;> rfl
@[simp] theorem regAdd_rsp (s : State) (m : MotorId) : (s.regAdd m).rsp = s.rsp := by
  unfold State.regAdd; split_ifs <;> rfl
@[simp] theorem regAdd_cfg (s : State) (m : MotorId) : (s.regAdd m).cfg = s.cfg := by
  unfold State.regAdd; split_ifs <;> rfl
@[simp] theorem regAdd_inputs (s : State) (m : MotorId) : (s.regAdd m).inputs = s.inputs := by
  unfold State.regAdd; split_ifs <;> rfl

@[simp] theorem regRemove_registry (s : State) (m : MotorId) : (s.regRemove m).registry = s.registry.erase m := rfl
@[simp] theorem regRemove_motor (s : State) (m k : MotorId) : (s.regRemove m).motor k = s.motor k := rfl
@[simp] theorem regRemove_timerEn (s : State) (m : MotorId) : (s.regRemove m).timerEn = s.timerEn := rfl
@[simp] theorem regRemove_pin (s : State) (m : MotorId) : (s.regRemove m).pin = s.pin := rfl
@[simp] theorem regRemove_pinDir (s : State) (m : MotorId) : (s.regRemove m).pinDir = s.pinDir := rfl
@[simp] theorem regRemove_rsp (s : State) (m : MotorId) : (s.regRemove m).rsp = s.rsp := rfl
@[simp] theorem regRemove_cfg (s : State) (m : MotorId) : (s.regRemove m).cfg = s.cfg := rfl
@[simp] theorem regRemove_inputs (s : State) (m : MotorId) : (s.regRemove m).inputs = s.inputs := rfl

@[simp] theorem enableTimer_motor (s : State) (k : MotorId) : s.enableTimer.motor k = s.motor k := rfl
@[simp] theorem enableTimer_registry (s : State) : s.enableTimer.registry = s.registry := rfl
@[simp] theorem enableTimer_timerEn (s : State) : s.enableTimer.timerEn = true := rfl
@[simp] theorem enableTimer_pin (s : State) : s.enableTimer.pin = s.pin := rfl
@[simp] theorem enableTimer_pinDir (s : State) : s.enableTimer.pinDir = s.pinDir := rfl
@[simp] theorem enableTimer_rsp (s : State) : s.enableTimer.rsp = s.rsp := rfl
@[simp] theorem enableTimer_cfg (s : State) : s.enableTimer.cfg = s.cfg := rfl
@[simp] theorem enableTimer_inputs (s : State) : s.enableTimer.inputs = s.inputs := rfl

/-! The response port. -/

@[simp] theorem respond_motor (s : State) (v : Word) (k : MotorId) : (s.respond v).motor k = s.motor k := rfl
@[simp] theorem respond_registry (s : State) (v : Word) : (s.respond v).registry = s.registry := rfl
@[simp] theorem respond_timerEn (s : State) (v : Word) : (s.respond v).timerEn = s.timerEn := rfl
@[simp] theorem respond_pin (s : State) (v : Word) : (s.respond v).pin = s.pin := rfl
@[simp] theorem respond_pinDir (s : State) (v : Word) : (s.respond v).pinDir = s.pinDir := rfl
@[simp] theorem respond_rsp (s : State) (v : Word) : (s.respond v).rsp = some v := rfl
@[simp] theorem respond_cfg (s : State) (v : Word) : (s.respond v).cfg = s.cfg := rfl
@[simp] theorem respond_inputs (s : State) (v : Word) : (s.respond v).inputs = s.inputs := rfl

@[simp] theorem clearRsp_motor (s : State) (k : MotorId) : s.clearRsp.motor k = s.motor k := rfl
@[simp] theorem clearRsp_registry (s : State) : s.clearRsp.registry = s.registry := rfl
@[simp] theorem clearRsp_timerEn (s : State) : s.clearRsp.timerEn = s.timerEn := rfl
@[simp] theorem clearRsp_pin (s : State) : s.clearRsp.pin = s.pin := rfl
@[simp] theorem clearRsp_pinDir (s : State) : s.clearRsp.pinDir = s.pinDir := rfl
@[simp] theorem clearRsp_rsp (s : State) : s.clearRsp.rsp = none := rfl
@[simp] theorem clearRsp_cfg (s : State) : s.clearRsp.cfg = s.cfg := rfl
@[simp] theorem clearRsp_inputs (s : State) : s.clearRsp.inputs = s.inputs := rfl

/-! Reset. -/

@[simp] theorem resetWith_motor (cfg : Config) (k : MotorId) : (State.resetWith cfg).motor k = Motor.reset cfg := by
  simp [State.motor, State.resetWith]
@[simp] theorem takeReset_motor (s : State) (k : MotorId) : s.takeReset.motor k = Motor.reset s.cfg := by
  simp [State.takeReset, State.motor, State.resetWith]
@[simp] theorem takeReset_registry (s : State) : s.takeReset.registry = [] := rfl
@[simp] theorem takeReset_timerEn (s : State) : s.takeReset.timerEn = false := rfl
@[simp] theorem takeReset_pin (s : State) : s.takeReset.pin = 0#64 := rfl
@[simp] theorem takeReset_pinDir (s : State) : s.takeReset.pinDir = 0#64 := rfl
@[simp] theorem takeReset_rsp (s : State) : s.takeReset.rsp = none := rfl
@[simp] theorem takeReset_cfg (s : State) : s.takeReset.cfg = s.cfg := rfl
@[simp] theorem takeReset_inputs (s : State) : s.takeReset.inputs = s.inputs := rfl

end Sys2Proof.Machine
end

