-- ==== Sys2Proof/Laws/Ops.lean ====
section
/-! SUPPORT. What the shared operations do, said once: pin images, the drive of a pattern, the registry, requests, and the
arithmetic helpers. -/

namespace Sys2Proof.Machine

/-! Pin images. -/

theorem getBit_setBit (image : BitVec 64) (p q : PinId) (v : Bool) :
    getBit (setBit image p v) q = if q = p then v else getBit image q := by
  have hp := p.isLt
  have hq := q.isLt
  have hpq : q = p ↔ q.val = p.val := Fin.ext_iff
  unfold getBit setBit
  cases v <;> by_cases h : q.val = p.val <;>
    simp [hpq, h, hp, hq] <;>
    (intros; omega)

theorem pinAt_pinWrite (s : State) (p q : PinId) (v : Bool) :
    (s.pinWrite p v).pinAt q = if q = p then v else s.pinAt q := getBit_setBit s.pin p q v

theorem pinDirAt_pinDirSet (s : State) (p q : PinId) :
    (s.pinDirSet p).pinDirAt q = if q = p then true else s.pinDirAt q := getBit_setBit s.pinDir p q true

/-! Driving a pattern changes the pin image and nothing else. -/

@[simp] theorem drive_motor (s : State) (x : Motor) (pat : Pattern) (k : MotorId) : (s.drive x pat).motor k = s.motor k := rfl
@[simp] theorem drive_registry (s : State) (x : Motor) (pat : Pattern) : (s.drive x pat).registry = s.registry := rfl
@[simp] theorem drive_timerEn (s : State) (x : Motor) (pat : Pattern) : (s.drive x pat).timerEn = s.timerEn := rfl
@[simp] theorem drive_pinDir (s : State) (x : Motor) (pat : Pattern) : (s.drive x pat).pinDir = s.pinDir := rfl
@[simp] theorem drive_rsp (s : State) (x : Motor) (pat : Pattern) : (s.drive x pat).rsp = s.rsp := rfl
@[simp] theorem drive_cfg (s : State) (x : Motor) (pat : Pattern) : (s.drive x pat).cfg = s.cfg := rfl
@[simp] theorem drive_inputs (s : State) (x : Motor) (pat : Pattern) : (s.drive x pat).inputs = s.inputs := rfl

/-- The levels after a drive: the later of two writes to one pin wins (20_memory.md R66). -/
theorem pinAt_drive (s : State) (x : Motor) (pat : Pattern) (q : PinId) :
    (s.drive x pat).pinAt q =
      if q = x.pin4 then pat.getLsbD 3 else if q = x.pin3 then pat.getLsbD 2
      else if q = x.pin2 then pat.getLsbD 1 else if q = x.pin1 then pat.getLsbD 0 else s.pinAt q := by
  simp only [State.drive, pinAt_pinWrite]

/-! The registry. -/

/-- Everything `reg_add` can do (40_registry_dispatch.md R110). -/
theorem regAdd_registry_cases (s : State) (m : MotorId) :
    (m ∈ s.registry ∧ (s.regAdd m).registry = s.registry) ∨
    (m ∉ s.registry ∧ s.cfg.regCap ≤ s.registry.length ∧ (s.regAdd m).registry = s.registry) ∨
    (m ∉ s.registry ∧ s.registry.length < s.cfg.regCap ∧ (s.regAdd m).registry = s.registry ++ [m]) := by
  unfold State.regAdd
  by_cases h : m ∈ s.registry
  · simp [h]
  · by_cases h' : s.cfg.regCap ≤ s.registry.length
    · simp [h, h']
    · simp [h, h', Nat.lt_of_not_le h']

theorem regAdd_length_le (s : State) (m : MotorId) (h : s.registry.length ≤ s.cfg.regCap) :
    (s.regAdd m).registry.length ≤ s.cfg.regCap := by
  obtain ⟨-, e⟩ | ⟨-, -, e⟩ | ⟨-, h', e⟩ := regAdd_registry_cases s m <;> rw [e]
  · exact h
  · exact h
  · simpa using h'

theorem regAdd_nodup (s : State) (m : MotorId) (h : s.registry.Nodup) : (s.regAdd m).registry.Nodup := by
  obtain ⟨-, e⟩ | ⟨-, -, e⟩ | ⟨hm, -, e⟩ := regAdd_registry_cases s m <;> rw [e]
  · exact h
  · exact h
  · exact List.Nodup.append h (List.nodup_singleton m) (by simpa using hm)

theorem regAdd_mem (s : State) (m k : MotorId) (h : k ∈ (s.regAdd m).registry) : k ∈ s.registry ∨ k = m := by
  obtain ⟨-, e⟩ | ⟨-, -, e⟩ | ⟨-, -, e⟩ := regAdd_registry_cases s m <;> rw [e] at h
  · exact .inl h
  · exact .inl h
  · simpa using h

/-! Requests. -/

/-- Everything a request can do (42_commands.md R160): overwrite one field of one context, or nothing. -/
theorem requestSteps_cases (s : State) (m : MotorId) (n : Int) :
    ((s.motor m).acceptsRequest = true ∧
      s.requestSteps m n = s.updMotor m fun x => { x with remaining := sextWrap s.cfg.stepsW n }) ∨
    ((s.motor m).acceptsRequest = false ∧ s.requestSteps m n = s) := by
  unfold State.requestSteps
  cases h : (s.motor m).acceptsRequest <;> simp

theorem acceptsRequest_iff (x : Motor) : x.acceptsRequest = true ↔ x.remaining = 0#32 ∨ x.intr = true := by
  simp [Motor.acceptsRequest]

/-! Arithmetic. -/

theorem wrap32_sint32 (v : Word) : wrap32 (sint32 v) = v := by simp [wrap32, sint32]

/-- A number that fits 32 bits two's complement survives the wrap. -/
theorem sint32_wrap32 (z : Int) (h1 : -2147483648 ≤ z) (h2 : z < 2147483648) : sint32 (wrap32 z) = z := by
  have hz : (BitVec.ofInt 32 z).toInt = z.bmod (2 ^ 32) := BitVec.toInt_ofInt z
  unfold sint32 wrap32
  rw [hz]
  simp only [Int.bmod_def]
  norm_num
  omega

theorem sint32_bounds (v : Word) : -2147483648 ≤ sint32 v ∧ sint32 v < 2147483648 := by
  have h1 := BitVec.le_toInt v
  have h2 := BitVec.toInt_lt (x := v)
  unfold sint32
  norm_num at h1 h2
  exact ⟨h1, h2⟩

theorem sint32_eq_zero (v : Word) : sint32 v = 0 ↔ v = 0#32 := by
  constructor
  · intro h
    have := wrap32_sint32 v
    rw [h] at this
    exact this.symm
  · rintro rfl; rfl

/-- `truncdiv` is the division that rounds toward zero. -/
theorem truncdiv_eq_tdiv (a : Int) (b : Nat) : truncdiv a b = a.tdiv b := by
  unfold truncdiv floordiv
  split
  · lift a to Nat using ‹_›
    rfl
  · obtain ⟨n, rfl⟩ : ∃ n : Nat, a = -(n : Int) := ⟨(-a).toNat, by omega⟩
    simp [Int.neg_tdiv]

/-! Fields narrower than their place. -/

/-- An unsigned field keeps its operand modulo `2^n`. -/
theorem uint32_zextLow (n : Nat) (v : Word) : uint32 (zextLow n v) = uint32 v % 2 ^ n := by
  have h : uint32 v % 2 ^ n < 2 ^ 32 := lt_of_le_of_lt (Nat.mod_le _ _) v.isLt
  simpa [uint32, zextLow] using Nat.mod_eq_of_lt h

theorem uint32_zextLow_lt (n : Nat) (v : Word) : uint32 (zextLow n v) < 2 ^ n := by
  rw [uint32_zextLow]; exact Nat.mod_lt _ (Nat.two_pow_pos n)

/-- A number that fits an unsigned field is kept. -/
theorem zextLow_fits (n : Nat) (v : Word) (h : uint32 v < 2 ^ n) : zextLow n v = v := by
  apply BitVec.eq_of_toNat_eq
  have := uint32_zextLow n v
  rw [Nat.mod_eq_of_lt h] at this
  exact this

theorem zextLow_whole (v : Word) : zextLow 32 v = v := zextLow_fits 32 v v.isLt

/-- Elapsed time is the difference modulo `2^n`, whatever more bits of the clock are kept. -/
theorem elapsed_eq (c : Config) (now last : Word) : elapsed c now last = (now - last).toNat % 2 ^ c.tsW :=
  uint32_zextLow _ _

/-- A two's complement field keeps its number modulo `2^n`, balanced. -/
theorem sint32_sextWrap (n : Nat) (hn : n ≤ 32) (z : Int) : sint32 (sextWrap n z) = z.bmod (2 ^ n) := by
  have hp : (2 : Nat) ^ n ≤ 2 ^ 32 := Nat.pow_le_pow_right (by norm_num) hn
  have h0 : 0 < (2 : Nat) ^ n := Nat.two_pow_pos n
  have h1 := Int.le_bmod (x := z) h0
  have h2 := Int.bmod_lt (x := z) h0
  unfold sextWrap
  generalize z.bmod (2 ^ n) = y at *
  generalize (2 : Nat) ^ n = m at *
  norm_num at hp
  exact sint32_wrap32 y (by omega) (by omega)

/-- A number that fits a two's complement field is kept. -/
theorem sint32_sextWrap_fits (n : Nat) (h0 : 1 ≤ n) (hn : n ≤ 32) (z : Int) (h1 : -2 ^ (n - 1) ≤ z) (h2 : z < 2 ^ (n - 1)) :
    sint32 (sextWrap n z) = z := by
  rw [sint32_sextWrap n hn]
  obtain ⟨k, rfl⟩ : ∃ k, n = k + 1 := ⟨n - 1, by omega⟩
  simp only [Nat.add_sub_cancel] at h1 h2
  apply Int.bmod_eq_of_le <;> rw [pow_succ] <;> push_cast <;> omega

/-- What a two's complement field keeps fits the field. -/
theorem sextWrap_range (n : Nat) (h0 : 1 ≤ n) (hn : n ≤ 32) (z : Int) :
    -2 ^ (n - 1) ≤ sint32 (sextWrap n z) ∧ sint32 (sextWrap n z) < 2 ^ (n - 1) := by
  rw [sint32_sextWrap n hn]
  obtain ⟨k, rfl⟩ : ∃ k, n = k + 1 := ⟨n - 1, by omega⟩
  have hp := Nat.two_pow_pos (k + 1)
  have h1 := Int.le_bmod (x := z) hp
  have h2 := Int.bmod_lt (x := z) hp
  simp only [Nat.add_sub_cancel]
  rw [pow_succ] at h1 h2 ⊢
  push_cast at h1 h2
  omega

/-- At the whole width the field keeps what `wrap_32` keeps. -/
theorem sextWrap_whole (z : Int) : sextWrap 32 z = wrap32 z := by
  apply BitVec.eq_of_toInt_eq
  have := sint32_sextWrap 32 (le_refl _) z
  simpa [sint32, wrap32, BitVec.toInt_ofInt] using this

theorem sextWrap_sint32 (v : Word) : sextWrap 32 (sint32 v) = v := by rw [sextWrap_whole, wrap32_sint32]

/-- A number in the field's range is in the place's. -/
theorem range_in_place (n : Nat) (hn : n ≤ 32) (z : Int) (h1 : -2 ^ (n - 1) ≤ z) (h2 : z < 2 ^ (n - 1)) :
    -2147483648 ≤ z ∧ z < 2147483648 := by
  have : (2 : Int) ^ (n - 1) ≤ 2 ^ 31 := pow_le_pow_right₀ (by norm_num) (by omega)
  norm_num at this
  omega

theorem sint32_posField_fits (c : Config) (hw : c.posW ≤ 32) (z : Int) (h1 : -2 ^ (c.posW - 1) ≤ z)
    (h2 : z < 2 ^ (c.posW - 1)) : sint32 (posField c z) = z := by
  have h := range_in_place c.posW hw z h1 h2
  rw [posField, if_pos ⟨h1, h2⟩, sint32_wrap32 z h.1 h.2]

/-- A table entry at R7's pattern width is its whole place. -/
theorem seqEntry_whole (c : Config) (h : c.patW = 4) (i : Cursor) : seqEntry c i = c.seq[i.toFin] := by
  unfold seqEntry
  rw [h, Nat.mod_eq_of_lt c.seq[i.toFin].isLt]
  simp

/-- The last place is one below the table's length. -/
theorem lastPlace_toNat (c : Config) (hc : c.Legal) : c.lastPlace.toNat + 1 = c.seqLen := by
  have h := hc.seqFits
  unfold Config.lastPlace
  simp only [BitVec.toNat_ofNat]
  omega

/-! The step angle. -/

theorem sprAccepted_iff (c : Config) (spr : Word) :
    sprAccepted c spr = true ↔ 0 < uint32 (zextLow c.sprW spr) ∧ c.sprMin ≤ uint32 (zextLow c.sprW spr) := by
  simp [sprAccepted]

/-- The step angle is at most a turn, for every accepted `spr` (10_state.md R24). -/
theorem angle_le_fullTurn (c : Config) (hc : c.Legal) (spr : Word) (h : c.sprMin ≤ uint32 spr) :
    c.turnNum / uint32 spr ≤ c.fullTurn :=
  Nat.div_le_of_le_mul (by
    rw [Config.turnNum, Nat.mul_comm]
    exact Nat.mul_le_mul_right _ (le_trans hc.wholeStep h))

/-- The quotient is the field's value wherever it fits. -/
theorem uint32_dpsOf_fits (c : Config) (spr : Word) (h : c.turnNum / uint32 spr < 2 ^ 32) :
    uint32 (dpsOf c spr) = c.turnNum / uint32 spr := by
  unfold dpsOf floordiv
  rw [if_pos h]
  exact Nat.mod_eq_of_lt h

/-- The step angle fits its field (40_registry_dispatch.md R113). -/
theorem uint32_dpsOf (c : Config) (hc : c.Legal) (spr : Word) (h : c.sprMin ≤ uint32 spr) :
    uint32 (dpsOf c spr) = c.turnNum / uint32 spr := by
  refine uint32_dpsOf_fits c spr ?_
  have h1 := angle_le_fullTurn c hc spr h
  have h2 := hc.turnFits
  have h3 : (2 : Nat) ^ (c.posW - 1) ≤ 2 ^ 31 := Nat.pow_le_pow_right (by norm_num) (by have := hc.positionsFit; omega)
  omega

end Sys2Proof.Machine
end

