-- ==== Sys2Proof/Laws/Sequencer.lean ====
section
/-! SUPPORT. What a motor tick and a TICK do, said once: the context's next value, the pattern that ends on the pins, and
that nothing else changes. -/

namespace Sys2Proof.Machine

/-- The context after a motor tick, a function of the context, the parameters and `now` alone (41_step_sequencer.md R130 to R141). -/
def Motor.afterTick (x : Motor) (c : Config) (now : Word) : Motor :=
  match x.branch with
  | .powerSaver => x
  | .forward =>
    if x.gate c now then
      if x.fidx = c.lastPlace then (Motor.completeFwd { x with fwd := false, last := zextLow c.tsW now } c).wrapPos c
      else { x with fwd := true, last := zextLow c.tsW now, fidx := x.fidx + 1#3 }
    else { x with fwd := true }
  | .backward =>
    if x.gate c now then
      if x.bidx = 0#3 then (Motor.completeBwd { x with bwd := false, last := zextLow c.tsW now } c).wrapPos c
      else { x with bwd := true, last := zextLow c.tsW now, bidx := x.bidx - 1#3 }
    else { x with bwd := true }
  | .idle => x

/-- The pattern a motor tick leaves on the motor's pins, if it writes them (41_step_sequencer.md R134 to R136, R139). -/
def Motor.shown (c : Config) (x : Motor) (now : Word) : Option Pattern :=
  match x.branch with
  | .powerSaver => some 0#4
  | .forward => some (seqEntry c (if x.gate c now = true ∧ x.fidx ≠ c.lastPlace then x.fidx + 1#3 else x.fidx))
  | .backward => some (seqEntry c (if x.gate c now = true ∧ x.bidx ≠ 0#3 then x.bidx - 1#3 else x.bidx))
  | .idle => none

/-- Drive the pattern, if there is one. -/
def State.driveShown (s : State) (x : Motor) : Option Pattern → State
  | none => s
  | some pat => s.drive x pat

theorem image_ext {a b : BitVec 64} (h : ∀ p : PinId, getBit a p = getBit b p) : a = b :=
  BitVec.eq_of_getLsbD_eq fun i hi => h ⟨i, hi⟩

/-- Of two drives of the same pins the second is what remains (20_memory.md R67). -/
theorem drive_drive (s : State) (x : Motor) (a b : Pattern) : (s.drive x a).drive x b = s.drive x b := by
  refine State.ext_motors (by simp) (by simp) (by simp) ?_ (by simp) (by simp) (by simp) (by simp)
  refine image_ext fun q => ?_
  change ((s.drive x a).drive x b).pinAt q = (s.drive x b).pinAt q
  rw [pinAt_drive, pinAt_drive, pinAt_drive]
  split_ifs <;> rfl

theorem drive_updMotor (s : State) (m : MotorId) (f : Motor → Motor) (x : Motor) (pat : Pattern) :
    (s.updMotor m f).drive x pat = (s.drive x pat).updMotor m f := rfl

/-- A context written with the value it had is the same state. -/
theorem updMotor_self (s : State) (m : MotorId) (f : Motor → Motor) (h : f (s.motor m) = s.motor m) : s.updMotor m f = s := by
  refine State.ext_motors (fun k => ?_) rfl rfl rfl rfl rfl rfl rfl
  rw [motor_updMotor]
  split
  · subst k; exact h
  · rfl

/-- Writes of one context depend on its present value only. -/
theorem updMotor_congr (s : State) (m : MotorId) (f g : Motor → Motor) (h : f (s.motor m) = g (s.motor m)) :
    s.updMotor m f = s.updMotor m g := by simp [State.updMotor, h]

/-- A drive depends on the context's four pin ids only. -/
def State.driveAt (s : State) (p1 p2 p3 p4 : PinId) (pat : Pattern) : State :=
  (((s.pinWrite p1 (pat.getLsbD 0)).pinWrite p2 (pat.getLsbD 1)).pinWrite p3 (pat.getLsbD 2)).pinWrite p4 (pat.getLsbD 3)

theorem drive_eq_driveAt (s : State) (x : Motor) (pat : Pattern) :
    s.drive x pat = s.driveAt x.pin1 x.pin2 x.pin3 x.pin4 pat := rfl

@[simp] theorem driveAt_motor (s : State) (p1 p2 p3 p4 : PinId) (pat : Pattern) (k : MotorId) :
    (s.driveAt p1 p2 p3 p4 pat).motor k = s.motor k := rfl

@[simp] theorem driveAt_cfg (s : State) (p1 p2 p3 p4 : PinId) (pat : Pattern) : (s.driveAt p1 p2 p3 p4 pat).cfg = s.cfg := rfl

theorem driveAt_updMotor (s : State) (m : MotorId) (f : Motor → Motor) (p1 p2 p3 p4 : PinId) (pat : Pattern) :
    (s.updMotor m f).driveAt p1 p2 p3 p4 pat = (s.driveAt p1 p2 p3 p4 pat).updMotor m f := rfl

theorem driveAt_driveAt (s : State) (p1 p2 p3 p4 : PinId) (a b : Pattern) :
    (s.driveAt p1 p2 p3 p4 a).driveAt p1 p2 p3 p4 b = s.driveAt p1 p2 p3 p4 b :=
  drive_drive s { Motor.reset Config.default with pin1 := p1, pin2 := p2, pin3 := p3, pin4 := p4 } a b

theorem branchForward_eq (m : MotorId) (now : Word) (s : State) :
    branchForward m now s =
      if (s.motor m).gate s.cfg now then
        if (s.motor m).fidx = s.cfg.lastPlace then
          (s.drive (s.motor m) (seqEntry s.cfg (s.motor m).fidx)).updMotor m
            fun x => (Motor.completeFwd { x with fwd := false, last := zextLow s.cfg.tsW now } s.cfg).wrapPos s.cfg
        else
          (s.drive (s.motor m) (seqEntry s.cfg ((s.motor m).fidx + 1#3))).updMotor m
            fun x => { x with fwd := true, last := zextLow s.cfg.tsW now, fidx := x.fidx + 1#3 }
      else (s.drive (s.motor m) (seqEntry s.cfg (s.motor m).fidx)).updMotor m fun x => { x with fwd := true } := by
  have hg : Motor.gate { s.motor m with fwd := true } s.cfg now = (s.motor m).gate s.cfg now := rfl
  unfold branchForward fwdSubstep
  simp only [State.applyPattern, State.seqRead, motor_updMotor_same, updMotor_cfg, hg,
    drive_eq_driveAt, driveAt_updMotor, updMotor_updMotor, driveAt_driveAt, driveAt_motor, driveAt_cfg,
    Function.comp_apply]
  split_ifs <;> simp only [updMotor_updMotor, updMotor_cfg, driveAt_cfg] <;> rfl

theorem branchBackward_eq (m : MotorId) (now : Word) (s : State) :
    branchBackward m now s =
      if (s.motor m).gate s.cfg now then
        if (s.motor m).bidx = 0#3 then
          (s.drive (s.motor m) (seqEntry s.cfg (s.motor m).bidx)).updMotor m
            fun x => (Motor.completeBwd { x with bwd := false, last := zextLow s.cfg.tsW now } s.cfg).wrapPos s.cfg
        else
          (s.drive (s.motor m) (seqEntry s.cfg ((s.motor m).bidx - 1#3))).updMotor m
            fun x => { x with bwd := true, last := zextLow s.cfg.tsW now, bidx := x.bidx - 1#3 }
      else (s.drive (s.motor m) (seqEntry s.cfg (s.motor m).bidx)).updMotor m fun x => { x with bwd := true } := by
  have hg : Motor.gate { s.motor m with bwd := true } s.cfg now = (s.motor m).gate s.cfg now := rfl
  unfold branchBackward bwdSubstep
  simp only [State.applyPattern, State.seqRead, motor_updMotor_same, updMotor_cfg, hg,
    drive_eq_driveAt, driveAt_updMotor, updMotor_updMotor, driveAt_driveAt, driveAt_motor, driveAt_cfg,
    Function.comp_apply]
  split_ifs <;> simp only [updMotor_updMotor, updMotor_cfg, driveAt_cfg] <;> rfl

/-- A motor tick drives one pattern (or none) and rewrites one context; it does nothing else. -/
theorem motorTick_eq (m : MotorId) (now : Word) (s : State) :
    motorTick m now s =
      (s.driveShown (s.motor m) ((s.motor m).shown s.cfg now)).updMotor m fun x => x.afterTick s.cfg now := by
  unfold motorTick
  cases hb : (s.motor m).branch with
  | powerSaver =>
    rw [updMotor_self]
    · simp [Motor.shown, hb, State.driveShown, State.applyPattern]
    · simp [Motor.shown, hb, State.driveShown, Motor.afterTick]
  | idle =>
    rw [updMotor_self]
    · simp [Motor.shown, hb, State.driveShown]
    · simp [Motor.shown, hb, State.driveShown, Motor.afterTick]
  | forward =>
    simp only [branchForward_eq, Motor.shown, hb, State.driveShown]
    split_ifs <;> simp_all <;> exact updMotor_congr _ _ _ _ (by simp [Motor.afterTick, *])
  | backward =>
    simp only [branchBackward_eq, Motor.shown, hb, State.driveShown]
    split_ifs <;> simp_all <;> exact updMotor_congr _ _ _ _ (by simp [Motor.afterTick, *])

@[simp] theorem driveShown_motor (s : State) (x : Motor) (o : Option Pattern) (k : MotorId) : (s.driveShown x o).motor k = s.motor k := by
  cases o <;> rfl
@[simp] theorem driveShown_registry (s : State) (x : Motor) (o : Option Pattern) : (s.driveShown x o).registry = s.registry := by
  cases o <;> rfl
@[simp] theorem driveShown_timerEn (s : State) (x : Motor) (o : Option Pattern) : (s.driveShown x o).timerEn = s.timerEn := by
  cases o <;> rfl
@[simp] theorem driveShown_pinDir (s : State) (x : Motor) (o : Option Pattern) : (s.driveShown x o).pinDir = s.pinDir := by
  cases o <;> rfl
@[simp] theorem driveShown_rsp (s : State) (x : Motor) (o : Option Pattern) : (s.driveShown x o).rsp = s.rsp := by
  cases o <;> rfl
@[simp] theorem driveShown_cfg (s : State) (x : Motor) (o : Option Pattern) : (s.driveShown x o).cfg = s.cfg := by
  cases o <;> rfl
@[simp] theorem driveShown_inputs (s : State) (x : Motor) (o : Option Pattern) : (s.driveShown x o).inputs = s.inputs := by
  cases o <;> rfl

/-! The motor tick, field by field. -/

@[simp] theorem motorTick_motor_same (m : MotorId) (now : Word) (s : State) :
    (motorTick m now s).motor m = (s.motor m).afterTick s.cfg now := by simp [motorTick_eq]
theorem motorTick_motor_other (m k : MotorId) (now : Word) (s : State) (h : k ≠ m) :
    (motorTick m now s).motor k = s.motor k := by simp [motorTick_eq, motor_updMotor_other, h]
@[simp] theorem motorTick_registry (m : MotorId) (now : Word) (s : State) : (motorTick m now s).registry = s.registry := by
  simp [motorTick_eq]
@[simp] theorem motorTick_timerEn (m : MotorId) (now : Word) (s : State) : (motorTick m now s).timerEn = s.timerEn := by
  simp [motorTick_eq]
@[simp] theorem motorTick_pinDir (m : MotorId) (now : Word) (s : State) : (motorTick m now s).pinDir = s.pinDir := by
  simp [motorTick_eq]
@[simp] theorem motorTick_rsp (m : MotorId) (now : Word) (s : State) : (motorTick m now s).rsp = s.rsp := by
  simp [motorTick_eq]
@[simp] theorem motorTick_cfg (m : MotorId) (now : Word) (s : State) : (motorTick m now s).cfg = s.cfg := by
  simp [motorTick_eq]
@[simp] theorem motorTick_inputs (m : MotorId) (now : Word) (s : State) : (motorTick m now s).inputs = s.inputs := by
  simp [motorTick_eq]

/-- The levels after a motor tick. -/
theorem motorTick_pinAt (m : MotorId) (now : Word) (s : State) (q : PinId) :
    (motorTick m now s).pinAt q = (s.driveShown (s.motor m) ((s.motor m).shown s.cfg now)).pinAt q := by
  rw [motorTick_eq]; rfl

/-- A pin that is none of the motor's four keeps its level in its motor tick. -/
theorem motorTick_pinAt_other (m : MotorId) (now : Word) (s : State) (q : PinId) (h1 : q ≠ (s.motor m).pin1)
    (h2 : q ≠ (s.motor m).pin2) (h3 : q ≠ (s.motor m).pin3) (h4 : q ≠ (s.motor m).pin4) :
    (motorTick m now s).pinAt q = s.pinAt q := by
  rw [motorTick_pinAt]
  cases (s.motor m).shown s.cfg now
  · rfl
  · simp [State.driveShown, pinAt_drive, h1, h2, h3, h4]

/-! The fields a motor tick never writes (10_state.md R21, 60_exceptions.md R211). -/

/-- Everything a motor tick can do to a context: the fields it never writes keep their values. -/
theorem afterTick_keeps (x : Motor) (c : Config) (now : Word) :
    (x.afterTick c now).pin1 = x.pin1 ∧ (x.afterTick c now).pin2 = x.pin2 ∧ (x.afterTick c now).pin3 = x.pin3 ∧
    (x.afterTick c now).pin4 = x.pin4 ∧ (x.afterTick c now).spr = x.spr ∧ (x.afterTick c now).dps = x.dps ∧
    (x.afterTick c now).attached = x.attached ∧ (x.afterTick c now).mindelay = x.mindelay ∧
    (x.afterTick c now).psave = x.psave ∧ (x.afterTick c now).intr = x.intr := by
  unfold Motor.afterTick Motor.completeFwd Motor.completeBwd Motor.wrapPos
  split <;> (try split_ifs) <;> simp

/-! The dispatch: registry order, each motor once. -/

@[simp] theorem dispatchTicks_registry (now : Word) (ms : List MotorId) (s : State) :
    (dispatchTicks now ms s).registry = s.registry := by
  induction ms generalizing s with
  | nil => rfl
  | cons m ms ih => simp [dispatchTicks, ih]
@[simp] theorem dispatchTicks_timerEn (now : Word) (ms : List MotorId) (s : State) :
    (dispatchTicks now ms s).timerEn = s.timerEn := by
  induction ms generalizing s with
  | nil => rfl
  | cons m ms ih => simp [dispatchTicks, ih]
@[simp] theorem dispatchTicks_pinDir (now : Word) (ms : List MotorId) (s : State) :
    (dispatchTicks now ms s).pinDir = s.pinDir := by
  induction ms generalizing s with
  | nil => rfl
  | cons m ms ih => simp [dispatchTicks, ih]
@[simp] theorem dispatchTicks_rsp (now : Word) (ms : List MotorId) (s : State) :
    (dispatchTicks now ms s).rsp = s.rsp := by
  induction ms generalizing s with
  | nil => rfl
  | cons m ms ih => simp [dispatchTicks, ih]
@[simp] theorem dispatchTicks_cfg (now : Word) (ms : List MotorId) (s : State) :
    (dispatchTicks now ms s).cfg = s.cfg := by
  induction ms generalizing s with
  | nil => rfl
  | cons m ms ih => simp [dispatchTicks, ih]
@[simp] theorem dispatchTicks_inputs (now : Word) (ms : List MotorId) (s : State) :
    (dispatchTicks now ms s).inputs = s.inputs := by
  induction ms generalizing s with
  | nil => rfl
  | cons m ms ih => simp [dispatchTicks, ih]

/-- A motor that is not listed keeps its context. -/
theorem dispatchTicks_motor_absent (now : Word) (ms : List MotorId) (s : State) (k : MotorId) (h : k ∉ ms) :
    (dispatchTicks now ms s).motor k = s.motor k := by
  induction ms generalizing s with
  | nil => rfl
  | cons m ms ih =>
    rw [List.mem_cons, not_or] at h
    rw [dispatchTicks, ih _ h.2, motorTick_motor_other _ _ _ _ h.1]

/-- A motor that is listed once is ticked once. -/
theorem dispatchTicks_motor_present (now : Word) (ms : List MotorId) (s : State) (k : MotorId) (hn : ms.Nodup) (h : k ∈ ms) :
    (dispatchTicks now ms s).motor k = (s.motor k).afterTick s.cfg now := by
  induction ms generalizing s with
  | nil => simp at h
  | cons m ms ih =>
    rw [List.nodup_cons] at hn
    rw [dispatchTicks]
    obtain rfl | h' := List.mem_cons.mp h
    · rw [dispatchTicks_motor_absent _ _ _ _ hn.1, motorTick_motor_same]
    · have hk : k ≠ m := fun e => hn.1 (e ▸ h')
      rw [ih _ hn.2 h', motorTick_motor_other _ _ _ _ hk, motorTick_cfg]

/-- However often a motor is listed, the fields a motor tick never writes keep their values. -/
theorem dispatchTicks_keeps (now : Word) (ms : List MotorId) (s : State) (k : MotorId) :
    ((dispatchTicks now ms s).motor k).pin1 = (s.motor k).pin1 ∧ ((dispatchTicks now ms s).motor k).pin2 = (s.motor k).pin2 ∧
    ((dispatchTicks now ms s).motor k).pin3 = (s.motor k).pin3 ∧ ((dispatchTicks now ms s).motor k).pin4 = (s.motor k).pin4 ∧
    ((dispatchTicks now ms s).motor k).spr = (s.motor k).spr ∧ ((dispatchTicks now ms s).motor k).dps = (s.motor k).dps ∧
    ((dispatchTicks now ms s).motor k).attached = (s.motor k).attached ∧
    ((dispatchTicks now ms s).motor k).mindelay = (s.motor k).mindelay ∧
    ((dispatchTicks now ms s).motor k).psave = (s.motor k).psave ∧
    ((dispatchTicks now ms s).motor k).intr = (s.motor k).intr := by
  induction ms generalizing s with
  | nil => simp [dispatchTicks]
  | cons m ms ih =>
    have h := ih (motorTick m now s)
    by_cases e : k = m
    · subst e
      simpa [dispatchTicks, afterTick_keeps] using h
    · simpa [dispatchTicks, motorTick_motor_other _ _ _ _ e] using h

/-- A pin of no listed motor keeps its level. -/
theorem dispatchTicks_pinAt_other (now : Word) (ms : List MotorId) (s : State) (q : PinId)
    (h : ∀ m ∈ ms, q ≠ (s.motor m).pin1 ∧ q ≠ (s.motor m).pin2 ∧ q ≠ (s.motor m).pin3 ∧ q ≠ (s.motor m).pin4) :
    (dispatchTicks now ms s).pinAt q = s.pinAt q := by
  induction ms generalizing s with
  | nil => rfl
  | cons m ms ih =>
    obtain ⟨h1, h2, h3, h4⟩ := h m (by simp)
    rw [dispatchTicks, ih, motorTick_pinAt_other _ _ _ _ h1 h2 h3 h4]
    intro k hk
    have hm := h k (by simp [hk])
    by_cases e : k = m
    · subst e
      simpa [afterTick_keeps] using hm
    · simpa [motorTick_motor_other _ _ _ _ e] using hm

end Sys2Proof.Machine
end

