-- ==== Sys2Proof/Laws/Exec.lean ====
section
/-! SUPPORT. What each meaning answers, and everything one step can do, said once. None of these is a simp lemma: a proof
cites the one it needs. -/

namespace Sys2Proof.Machine

/-! The meanings. -/

theorem sprAccepted_eq (c : Config) (spr : Word) : sprAccepted c spr = true ↔ AttachAccepts c spr := by
  rw [sprAccepted_iff, uint32_zextLow]; rfl

theorem exec_attach (m : MotorId) (spr : Word) (p1 p2 p3 p4 : PinId) (s : State) (h : AttachAccepts s.cfg spr) :
    exec (.attach m spr p1 p2 p3 p4) s =
      .next ((((((s.updMotor m fun x => x.bindPins s.cfg spr p1 p2 p3 p4).pinDirSet p1).pinDirSet p2).pinDirSet p3).pinDirSet
        p4).regAdd m).enableTimer := by
  simp [exec, execAttach, (sprAccepted_eq _ _).2 h]

theorem exec_attach_refused (m : MotorId) (spr : Word) (p1 p2 p3 p4 : PinId) (s : State) (h : ¬ AttachAccepts s.cfg spr) :
    exec (.attach m spr p1 p2 p3 p4) s = .refused .attachSprBelowMinimum := by
  have : sprAccepted s.cfg spr ≠ true := fun e => h ((sprAccepted_eq _ _).1 e)
  simp [exec, execAttach, this]

theorem exec_detach (m : MotorId) (s : State) :
    exec (.detach m) s = .next ((s.regRemove m).updMotor m fun x => { x with attached := false }) := rfl

theorem exec_psave (m : MotorId) (en : Bool) (s : State) :
    exec (.psave m en) s = .next (s.updMotor m fun x => { x with psave := en }) := rfl

theorem exec_intr (m : MotorId) (en : Bool) (s : State) :
    exec (.intr m en) s = .next (s.updMotor m fun x => { x with intr := en }) := rfl

theorem exec_setpos (m : MotorId) (target : Word) (s : State) :
    exec (.setpos m target) s = .next (s.requestSteps m (setposSteps s.cfg target (s.motor m).pos (s.motor m).spr)) := rfl

theorem exec_setorg (m : MotorId) (s : State) :
    exec (.setorg m) s = .next (s.updMotor m fun x => { x with pos := 0#32 }) := rfl

theorem exec_getpos (m : MotorId) (s : State) : exec (.getpos m) s = .next (s.respond (s.motor m).pos) := rfl

theorem exec_setspd (m : MotorId) (us : Word) (s : State) :
    exec (.setspd m us) s = .next (s.updMotor m fun x => { x with mindelay := zextLow s.cfg.tsW us }) := rfl

theorem exec_step (m : MotorId) (n : Word) (s : State) : exec (.step m n) s = .next (s.requestSteps m (sint32 n)) := rfl

theorem exec_ismov (m : MotorId) (s : State) :
    exec (.ismov m) s = .next (s.respond (if (s.motor m).isMoving then 1#32 else 0#32)) := rfl

theorem exec_stop (m : MotorId) (s : State) :
    exec (.stop m) s = .next (s.updMotor m fun x => { x with remaining := 0#32 }) := rfl

theorem exec_tick (now : Word) (s : State) : exec (.tick now) s = .next (dispatchTicks now s.registry s) := rfl

theorem afterTick_eq (now : Word) (s : State) : s.afterTick now = dispatchTicks now s.registry s := rfl

/-! The step. -/

/-- What the TICK ports decode to (30_encoding.md R85). -/
theorem decode_tickWord (c : PortIn) :
    decode (.tickPort c.tickWord) = if c.tick then .ok (.tick c.nowUs) else .error .noTick := by
  have h1 : c.tickWord.getLsbD 32 = c.tick := by
    unfold PortIn.tickWord
    rw [BitVec.getLsbD_append]
    cases c.tick <;> rfl
  have h2 : c.tickWord.extractLsb' 0 32 = c.nowUs := Laws.low_append (BitVec.ofBool c.tick) c.nowUs
  show decodeTick c.tickWord = _
  rw [decodeTick, h1, h2]

/-- The state after the TICK part of a clock. -/
def State.tickPart (s : State) (c : PortIn) : State := if c.tick then s.afterTick c.nowUs else s

theorem runTickPort_eq (c : PortIn) (s : State) : runTickPort c s = .next (s.tickPart c) := by
  unfold runTickPort State.tickPart
  rw [decode_tickWord]
  cases c.tick <;> rfl

@[simp] theorem tickPart_cfg (s : State) (c : PortIn) : (s.tickPart c).cfg = s.cfg := by
  unfold State.tickPart
  split
  · rw [afterTick_eq, dispatchTicks_cfg]
  · rfl

/-- The command port's check is that everything named exists. -/
theorem hasOperandsOf_iff (c : Config) (i : Instr) : hasOperandsOf c i = true ↔ OperandsExist c i := by
  unfold hasOperandsOf OperandsExist hasMotor hasPin
  cases i.motor? <;> simp

/-- What the command part of a clock can do: nothing, or run the decoded command. -/
theorem runCommandPort_cases (c : PortIn) (s : State) :
    ((c.cmdValid = false ∨ (∃ e, decode (.command c.cmdWord) = .error e) ∨
        ∃ i, decode (.command c.cmdWord) = .ok i ∧ ¬ OperandsExist s.cfg i) ∧ runCommandPort c s = .next s) ∨
    (c.cmdValid = true ∧ ∃ i, decode (.command c.cmdWord) = .ok i ∧ OperandsExist s.cfg i ∧
      runCommandPort c s = exec i s) := by
  unfold runCommandPort
  cases hv : c.cmdValid
  · exact .inl ⟨.inl rfl, rfl⟩
  · cases hd : decode (.command c.cmdWord) with
    | error e => exact .inl ⟨.inr (.inl ⟨e, rfl⟩), by simp⟩
    | ok i =>
      by_cases hm : OperandsExist s.cfg i
      · exact .inr ⟨rfl, i, rfl, hm, by simp [(hasOperandsOf_iff _ _).2 hm]⟩
      · have : hasOperandsOf s.cfg i ≠ true := fun e => hm ((hasOperandsOf_iff _ _).1 e)
        exact .inl ⟨.inr (.inr ⟨i, rfl, hm⟩), by simp [this]⟩

theorem runCommandPort_runs (c : PortIn) (s : State) (i : Instr) (hv : c.cmdValid = true)
    (hd : decode (.command c.cmdWord) = .ok i) (hm : OperandsExist s.cfg i) :
    runCommandPort c s = exec i s := by
  unfold runCommandPort
  simp [hv, hd, (hasOperandsOf_iff s.cfg i).2 hm]

theorem runCommandPort_illegal (c : PortIn) (s : State) (e : DecodeError) (hd : decode (.command c.cmdWord) = .error e) :
    runCommandPort c s = .next s := by
  unfold runCommandPort
  simp [hd]

theorem runCommandPort_absent (c : PortIn) (s : State) (i : Instr) (hd : decode (.command c.cmdWord) = .ok i)
    (hm : ¬ OperandsExist s.cfg i) : runCommandPort c s = .next s := by
  have h : hasOperandsOf s.cfg i ≠ true := fun e => hm ((hasOperandsOf_iff _ _).1 e)
  unfold runCommandPort
  simp [hd, h]

theorem step_idle (s : State) (h : s.inputs = []) : step s = .next s.clearRsp := by
  simp [step, State.nextClock, h, idleClock]

theorem step_clock (s : State) (c : PortIn) (cs : List PortIn) (h : s.inputs = c :: cs) :
    step s =
      if c.rst then .next ({ s with inputs := cs } : State).takeReset
      else runCommandPort c ((({ s with inputs := cs } : State).clearRsp).tickPart c) := by
  simp only [step, State.nextClock, h, clockEdge, runTickPort_eq, andThen]

/-- Everything a step that goes on can do. -/
theorem step_cases (s t : State) (ht : step s = .next t) :
    (s.inputs = [] ∧ t = s.clearRsp) ∨
    ∃ c cs, s.inputs = c :: cs ∧
      ((c.rst = true ∧ t = ({ s with inputs := cs } : State).takeReset) ∨
       (c.rst = false ∧ t = (({ s with inputs := cs } : State).clearRsp).tickPart c) ∨
       (c.rst = false ∧ c.cmdValid = true ∧ ∃ i, decode (.command c.cmdWord) = .ok i ∧
          OperandsExist s.cfg i ∧
          exec i ((({ s with inputs := cs } : State).clearRsp).tickPart c) = .next t)) := by
  cases hi : s.inputs with
  | nil =>
    rw [step_idle s hi] at ht
    injection ht with ht
    exact .inl ⟨rfl, ht.symm⟩
  | cons c cs =>
    refine .inr ⟨c, cs, rfl, ?_⟩
    rw [step_clock s c cs hi] at ht
    cases hr : c.rst
    · rw [hr] at ht
      obtain ⟨-, e⟩ | ⟨hv, i, hd, hm, e⟩ := runCommandPort_cases c ((({ s with inputs := cs } : State).clearRsp).tickPart c)
      · simp only [e] at ht
        injection ht with ht
        exact .inr (.inl ⟨rfl, ht.symm⟩)
      · simp only [e] at ht
        rw [tickPart_cfg, clearRsp_cfg] at hm
        exact .inr (.inr ⟨rfl, hv, i, hd, hm, by simpa using ht⟩)
    · rw [hr] at ht
      injection ht with ht
      exact .inl ⟨rfl, ht.symm⟩

end Sys2Proof.Machine
end

