-- ==== Sys2Proof/Laws/PerInstr.lean ====
section
/-! SUPPORT. The family OpcodeRow: every instruction's encoding lies in its own row of the opcode map, and in no other
(30_encoding.md R84, R85), one lemma per constructor. -/

namespace Sys2Proof.Laws.OpcodeRow

/-- The word that `i` encodes to meets the match and mask of the row of its mnemonic, and of no other row. -/
def Statement (i : Instr) : Prop :=
  match encode i with
  | .command w => ∀ r ∈ opTable, r.matches w = true ↔ r.mnemonic = i.mnemonic
  | .tickPort w => w &&& tickMask = tickMatch ∧ i.mnemonic = "TICK"

/-- A row is met header and payload apart. -/
theorem matches_append (r : OpRow) (h : BitVec 8) (p : BitVec 56) :
    r.matches (h ++ p) = true ↔
      h &&& r.mask.extractLsb' 56 8 = r.mtch.extractLsb' 56 8 ∧
      p &&& r.mask.extractLsb' 0 56 = r.mtch.extractLsb' 0 56 := by
  unfold OpRow.matches
  rw [beq_iff_eq]
  conv_lhs => rw [append_slices r.mask, append_slices r.mtch, BitVec.and_append]
  exact append_inj

/-- The header alone picks the row of its opcode, whatever the motor id. -/
theorem header_row (k : BitVec 4) (m : MotorId) :
    ∀ r ∈ opTable, (header k m &&& r.mask.extractLsb' 56 8 = r.mtch.extractLsb' 56 8 ↔ r.mtch.extractLsb' 60 4 = k) := by
  revert k m; decide

/-- A command word lies in the row of its opcode alone, once its payload meets that row. -/
theorem row_of_payload (k : BitVec 4) (m : MotorId) (p : BitVec 56) (mn : String)
    (hk : ∀ r ∈ opTable, (r.mtch.extractLsb' 60 4 = k ↔ r.mnemonic = mn))
    (hp : ∀ r ∈ opTable, r.mnemonic = mn → p &&& r.mask.extractLsb' 0 56 = r.mtch.extractLsb' 0 56) :
    ∀ r ∈ opTable, r.matches (header k m ++ p) = true ↔ r.mnemonic = mn := by
  intro r hr
  rw [matches_append, header_row k m r hr, hk r hr]
  exact ⟨fun h => h.1, fun h => ⟨h, hp r hr h⟩⟩

/-- The must-be-zero bits of format I. -/
theorem payloadI_zero (imm : Word) : payloadI imm &&& 0x00FFFFFF00000000#56 = 0#56 := by
  have e : (0x00FFFFFF00000000#56 : BitVec 56) = 0xFFFFFF#24 ++ 0#32 := by decide
  rw [e, payloadI, BitVec.and_append]
  simp

/-- A payload that meets format I's mask meets the row of each format I command. -/
theorem row_of_payloadI (imm : Word) : ∀ r ∈ opTable, r.mnemonic ∈ ["SETPOS", "SETSPD", "STEP"] →
    payloadI imm &&& r.mask.extractLsb' 0 56 = r.mtch.extractLsb' 0 56 := by
  intro r hr hm
  have h : r.mask.extractLsb' 0 56 = 0x00FFFFFF00000000#56 ∧ r.mtch.extractLsb' 0 56 = 0#56 := by
    revert r; decide
  rw [h.1, h.2, payloadI_zero]

theorem attach (m : MotorId) (spr : Word) (p1 p2 p3 p4 : PinId) : Statement (.attach m spr p1 p2 p3 p4) := by
  refine row_of_payload 0x1#4 m _ "ATTACH" (by decide) fun r hr hm => ?_
  have h : r.mask.extractLsb' 0 56 = 0#56 ∧ r.mtch.extractLsb' 0 56 = 0#56 := by revert r; decide
  rw [h.1, h.2, BitVec.and_zero]

theorem detach (m : MotorId) : Statement (.detach m) := row_of_payload 0x2#4 m _ "DETACH" (by decide) (by decide)

theorem psave (m : MotorId) (en : Bool) : Statement (.psave m en) :=
  row_of_payload 0x3#4 m _ "PSAVE" (by decide) (by revert en; decide)

theorem intr (m : MotorId) (en : Bool) : Statement (.intr m en) :=
  row_of_payload 0x4#4 m _ "INTR" (by decide) (by revert en; decide)

theorem setpos (m : MotorId) (target : Word) : Statement (.setpos m target) :=
  row_of_payload 0x5#4 m _ "SETPOS" (by decide) fun r hr hm => row_of_payloadI target r hr (by simp [hm])

theorem setorg (m : MotorId) : Statement (.setorg m) := row_of_payload 0x6#4 m _ "SETORG" (by decide) (by decide)

theorem getpos (m : MotorId) : Statement (.getpos m) := row_of_payload 0x7#4 m _ "GETPOS" (by decide) (by decide)

theorem setspd (m : MotorId) (us : Word) : Statement (.setspd m us) :=
  row_of_payload 0x8#4 m _ "SETSPD" (by decide) fun r hr hm => row_of_payloadI us r hr (by simp [hm])

theorem step (m : MotorId) (n : Word) : Statement (.step m n) :=
  row_of_payload 0x9#4 m _ "STEP" (by decide) fun r hr hm => row_of_payloadI n r hr (by simp [hm])

theorem ismov (m : MotorId) : Statement (.ismov m) := row_of_payload 0xA#4 m _ "ISMOV" (by decide) (by decide)

theorem stop (m : MotorId) : Statement (.stop m) := row_of_payload 0xB#4 m _ "STOP" (by decide) (by decide)

theorem tick (now : Word) : Statement (.tick now) := by
  refine ⟨?_, rfl⟩
  have e1 : tickMask = 1#1 ++ 0#32 := by decide
  have e2 : tickMatch = 1#1 ++ 0#32 := by decide
  rw [e1, e2, BitVec.and_append]
  simp

end Sys2Proof.Laws.OpcodeRow
end

