-- ==== Sys2Proof/Laws/Ticks.lean ====
section
/-! SUPPORT. What a motor tick does to a context, case by case and in plain arithmetic, so that no proof unfolds the
branches, the phase accumulator or the wrap. None of these is a simp lemma. -/

namespace Sys2Proof.Machine

/-! Which branch. -/

theorem branch_powerSaver (x : Motor) (h1 : x.psave = true) (h2 : x.remaining = 0#32) : x.branch = .powerSaver := by
  simp [Motor.branch, h1, h2, sint32]

theorem branch_forward (x : Motor) (h1 : ¬ (x.psave = true ∧ x.remaining = 0#32))
    (h2 : x.fwd = true ∨ (x.bwd = false ∧ 0 < x.remaining.toInt)) : x.branch = .forward := by
  unfold Motor.branch
  simp only [sint32_eq_zero]
  rw [if_neg h1]
  exact if_pos h2

theorem branch_backward (x : Motor) (h1 : ¬ (x.psave = true ∧ x.remaining = 0#32)) (h2 : x.fwd = false)
    (h3 : x.bwd = true ∨ x.remaining.toInt < 0) : x.branch = .backward := by
  unfold Motor.branch
  simp only [sint32_eq_zero]
  rw [if_neg h1, if_neg, if_pos]
  · exact h3
  · rintro (h | ⟨h, h'⟩)
    · simp [h2] at h
    · rcases h3 with h3 | h3
      · simp [h3] at h
      · unfold sint32 at h'; omega

theorem branch_idle (x : Motor) (h1 : x.psave = false) (h2 : x.remaining = 0#32) (h3 : x.fwd = false) (h4 : x.bwd = false) :
    x.branch = .idle := by
  simp [Motor.branch, h1, h2, h3, h4, sint32]

/-! The arithmetic of a completion. -/

/-- The wrap writes the position and nothing else. -/
theorem wrapPos_eq (x : Motor) (c : Config) : ∃ v, x.wrapPos c = { x with pos := v } := by
  unfold Motor.wrapPos
  split_ifs
  · exact ⟨_, rfl⟩
  · exact ⟨_, rfl⟩
  · exact ⟨x.pos, rfl⟩

/-- The position after the one correction, for an exact sum or difference `z` that fits the field (41_step_sequencer.md R141). -/
theorem wrapPos_pos (x : Motor) (c : Config) (hc : c.Legal) (z : Int) (h1 : -2 ^ (c.posW - 1) ≤ z) (h2 : z < 2 ^ (c.posW - 1))
    (hx : x.pos = posField c z) :
    (x.wrapPos c).pos.toInt = if c.fullTurn ≤ z then z - c.fullTurn else if z < 0 then z + c.fullTurn else z := by
  obtain ⟨hp, hw⟩ := hc.positionsFit
  have hf : 2 * (c.fullTurn : Int) < 2 ^ (c.posW - 1) := by exact_mod_cast hc.turnFits
  have e : sint32 x.pos = z := by rw [hx, sint32_posField_fits c hw z h1 h2]
  show sint32 (x.wrapPos c).pos = _
  unfold Motor.wrapPos
  rw [e]
  split_ifs with a b
  · exact sint32_sextWrap_fits _ hp hw _ (by omega) (by omega)
  · exact sint32_sextWrap_fits _ hp hw _ (by omega) (by omega)
  · exact e

/-- One correction is enough within a turn of the range. -/
theorem correction_eq_mod (z full : Int) (h1 : -full ≤ z) (h2 : z < 2 * full) :
    (if full ≤ z then z - full else if z < 0 then z + full else z) = z % full := by
  split_ifs with a b
  · rw [← Int.sub_emod_right, Int.emod_eq_of_lt (by omega) (by omega)]
  · rw [← Int.add_emod_right, Int.emod_eq_of_lt (by omega) (by omega)]
  · rw [Int.emod_eq_of_lt (by omega) (by omega)]

/-- The field writes of a forward completion, the wrap included. -/
theorem forward_completion_writes (x : Motor) (c : Config) (now : Word) :
    ∃ r v, (Motor.completeFwd { x with fwd := false, last := zextLow c.tsW now } c).wrapPos c =
        { x with fwd := false, last := zextLow c.tsW now, fidx := 0#3, remaining := r, pos := v } ∧
      (c.Legal → r.toInt = (x.remaining.toInt - 1).bmod (2 ^ c.stepsW)) ∧
      (c.Legal → ∀ z : Int, z = x.pos.toInt + x.dps.toNat → -2 ^ (c.posW - 1) ≤ z → z < 2 ^ (c.posW - 1) →
        v.toInt = if c.fullTurn ≤ z then z - c.fullTurn else if z < 0 then z + c.fullTurn else z) := by
  obtain ⟨v, hv⟩ := wrapPos_eq (Motor.completeFwd { x with fwd := false, last := zextLow c.tsW now } c) c
  refine ⟨_, v, hv, fun hc => sint32_sextWrap c.stepsW hc.stepsFit.2 _, fun hc z hz h1 h2 => ?_⟩
  have h := wrapPos_pos (Motor.completeFwd { x with fwd := false, last := zextLow c.tsW now } c) c hc z h1 h2 (by rw [hz]; rfl)
  rw [hv] at h
  exact h

/-- The field writes of a backward completion, the wrap included. -/
theorem backward_completion_writes (x : Motor) (c : Config) (now : Word) :
    ∃ r v, (Motor.completeBwd { x with bwd := false, last := zextLow c.tsW now } c).wrapPos c =
        { x with bwd := false, last := zextLow c.tsW now, bidx := c.lastPlace, remaining := r, pos := v } ∧
      (c.Legal → r.toInt = (x.remaining.toInt + 1).bmod (2 ^ c.stepsW)) ∧
      (c.Legal → ∀ z : Int, z = x.pos.toInt - x.dps.toNat → -2 ^ (c.posW - 1) ≤ z → z < 2 ^ (c.posW - 1) →
        v.toInt = if c.fullTurn ≤ z then z - c.fullTurn else if z < 0 then z + c.fullTurn else z) := by
  obtain ⟨v, hv⟩ := wrapPos_eq (Motor.completeBwd { x with bwd := false, last := zextLow c.tsW now } c) c
  refine ⟨_, v, hv, fun hc => sint32_sextWrap c.stepsW hc.stepsFit.2 _, fun hc z hz h1 h2 => ?_⟩
  have h := wrapPos_pos (Motor.completeBwd { x with bwd := false, last := zextLow c.tsW now } c) c hc z h1 h2 (by rw [hz]; rfl)
  rw [hv] at h
  exact h

/-- Everything a motor tick can do to a context, and whether it passes the gate. -/
theorem afterTick_cases (x : Motor) (c : Config) (now : Word) :
    (x.afterTick c now = x ∧ x.passes c now = false ∧
      ((x.psave = true ∧ x.remaining = 0#32) ∨ (x.remaining = 0#32 ∧ x.fwd = false ∧ x.bwd = false))) ∨
    (¬ (x.psave = true ∧ x.remaining = 0#32) ∧ (x.fwd = true ∨ (x.bwd = false ∧ 0 < x.remaining.toInt)) ∧
      ((x.gate c now = false ∧ x.passes c now = false ∧ x.afterTick c now = { x with fwd := true }) ∨
       (x.gate c now = true ∧ x.passes c now = true ∧ x.fidx ≠ c.lastPlace ∧
          x.afterTick c now = { x with fwd := true, last := zextLow c.tsW now, fidx := x.fidx + 1#3 }) ∨
       (x.gate c now = true ∧ x.passes c now = true ∧ x.fidx = c.lastPlace ∧ ∃ r v,
          x.afterTick c now =
            { x with fwd := false, last := zextLow c.tsW now, fidx := 0#3, remaining := r, pos := v } ∧
          (c.Legal → r.toInt = (x.remaining.toInt - 1).bmod (2 ^ c.stepsW)) ∧
          (c.Legal → ∀ z : Int, z = x.pos.toInt + x.dps.toNat → -2 ^ (c.posW - 1) ≤ z → z < 2 ^ (c.posW - 1) →
            v.toInt = if c.fullTurn ≤ z then z - c.fullTurn else if z < 0 then z + c.fullTurn else z)))) ∨
    (¬ (x.psave = true ∧ x.remaining = 0#32) ∧ x.fwd = false ∧ (x.bwd = true ∨ x.remaining.toInt < 0) ∧
      ((x.gate c now = false ∧ x.passes c now = false ∧ x.afterTick c now = { x with bwd := true }) ∨
       (x.gate c now = true ∧ x.passes c now = true ∧ x.bidx ≠ 0#3 ∧
          x.afterTick c now = { x with bwd := true, last := zextLow c.tsW now, bidx := x.bidx - 1#3 }) ∨
       (x.gate c now = true ∧ x.passes c now = true ∧ x.bidx = 0#3 ∧ ∃ r v,
          x.afterTick c now =
            { x with bwd := false, last := zextLow c.tsW now, bidx := c.lastPlace, remaining := r, pos := v } ∧
          (c.Legal → r.toInt = (x.remaining.toInt + 1).bmod (2 ^ c.stepsW)) ∧
          (c.Legal → ∀ z : Int, z = x.pos.toInt - x.dps.toNat → -2 ^ (c.posW - 1) ≤ z → z < 2 ^ (c.posW - 1) →
            v.toInt = if c.fullTurn ≤ z then z - c.fullTurn else if z < 0 then z + c.fullTurn else z)))) := by
  by_cases hp : x.psave = true ∧ x.remaining = 0#32
  · have hb := branch_powerSaver x hp.1 hp.2
    exact .inl ⟨by simp [Motor.afterTick, hb], by simp [Motor.passes, hb], .inl hp⟩
  by_cases hf : x.fwd = true ∨ (x.bwd = false ∧ 0 < x.remaining.toInt)
  · refine .inr (.inl ⟨hp, hf, ?_⟩)
    have hb := branch_forward x hp hf
    cases hg : x.gate c now
    · exact .inl ⟨rfl, by simp [Motor.passes, hg], by simp [Motor.afterTick, hb, hg]⟩
    by_cases h7 : x.fidx = c.lastPlace
    · refine .inr (.inr ⟨rfl, by simp [Motor.passes, hg, hb], h7, ?_⟩)
      obtain ⟨r, v, hv, hrem, hpos⟩ := forward_completion_writes x c now
      exact ⟨r, v, by rw [← hv]; simp [Motor.afterTick, hb, hg, h7], hrem, hpos⟩
    · exact .inr (.inl ⟨rfl, by simp [Motor.passes, hg, hb], h7, by simp [Motor.afterTick, hb, hg, h7]⟩)
  have hff : x.fwd = false := by simpa using (not_or.mp hf).1
  by_cases hk : x.bwd = true ∨ x.remaining.toInt < 0
  · refine .inr (.inr ⟨hp, hff, hk, ?_⟩)
    have hb := branch_backward x hp hff hk
    cases hg : x.gate c now
    · exact .inl ⟨rfl, by simp [Motor.passes, hg], by simp [Motor.afterTick, hb, hg]⟩
    by_cases h0 : x.bidx = 0#3
    · refine .inr (.inr ⟨rfl, by simp [Motor.passes, hg, hb], h0, ?_⟩)
      obtain ⟨r, v, hv, hrem, hpos⟩ := backward_completion_writes x c now
      exact ⟨r, v, by rw [← hv]; simp [Motor.afterTick, hb, hg, h0], hrem, hpos⟩
    · exact .inr (.inl ⟨rfl, by simp [Motor.passes, hg, hb], h0, by simp [Motor.afterTick, hb, hg, h0]⟩)
  · have h2 : x.bwd = false := by simpa using (not_or.mp hk).1
    have h3 : x.remaining = 0#32 := by
      have a := (not_or.mp hf).2
      have b := (not_or.mp hk).2
      simp only [h2, true_and] at a
      exact BitVec.eq_of_toInt_eq (by rw [BitVec.toInt_zero]; omega)
    have hb := branch_idle x (by simpa [h3] using hp) h3 hff h2
    exact .inl ⟨by simp [Motor.afterTick, hb], by simp [Motor.passes, hb], .inr ⟨h3, hff, h2⟩⟩

end Sys2Proof.Machine
end

