-- ==== Sys2Proof/Tests/Slice0.lean ====
section
/-! SUPPORT. The model's own tests: expected values are those of spec/ (30_encoding.md R104, 95_test_vectors.md V-…), and
for every statement with hypotheses a theorem that concrete states and operands meet them, clause by clause. -/

namespace Sys2Proof.Tests

open Sys2Proof.Machine

/-! WellFormed: the one check. -/

theorem test_wf_attach_below :
    (Instr.attach 0 999#32 2 3 4 5).wellFormed = false ∧ (Instr.attach 1 0#32 2 3 4 5).wellFormed = false := by
  decide
theorem test_wf_attach_boundary :
    (Instr.attach 0 1000#32 2 3 4 5).wellFormed = true ∧ (Instr.attach 3 0xFFFFFFFF#32 63 63 63 63).wellFormed = true := by
  decide

/-! Decoding: words of 30_encoding.md R104 (command word = op, mid, rsv, payload), and the TICK port of R85. -/

theorem test_decode_attach : decodeTableWord 64 0x1C001F187E28B30D = some (.attach 3 2037886#32 10 11 12 13) := by decide
theorem test_decode_detach : decodeTableWord 64 0x2400000000000000 = some (.detach 1) := by decide
theorem test_decode_psave : decodeTableWord 64 0x3800000000000001 = some (.psave 2 true) := by decide
theorem test_decode_intr : decodeTableWord 64 0x4000000000000001 = some (.intr 0 true) := by decide
theorem test_decode_setpos : decodeTableWord 64 0x54000000FD515AC0 = some (.setpos 1 (BitVec.ofInt 32 (-45000000))) := by decide
theorem test_decode_setorg : decodeTableWord 64 0x6C00000000000000 = some (.setorg 3) := by decide
theorem test_decode_getpos : decodeTableWord 64 0x7000000000000000 = some (.getpos 0) := by decide
theorem test_decode_setspd : decodeTableWord 64 0x80000000FFFFFFFF = some (.setspd 0 4294967295#32) := by decide
theorem test_decode_step : decodeTableWord 64 0x90000000FFFFFFFF = some (.step 0 (BitVec.ofInt 32 (-1))) := by decide
theorem test_decode_ismov : decodeTableWord 64 0xA800000000000000 = some (.ismov 2) := by decide
theorem test_decode_stop : decodeTableWord 64 0xB000000000000000 = some (.stop 0) := by decide
theorem test_decode_tick : decodeTableWord 40 0x100001388 = some (.tick 5000#32) := by decide

/-- V-E2 of 95_test_vectors.md, each row with the model's name of the reason. -/
theorem test_decode_illegal :
    decodeCommand 0x0000000000000000#64 = .error .reservedOpcode ∧
    decodeCommand 0xC000000000000000#64 = .error .reservedOpcode ∧
    decodeCommand 0xF000000000000000#64 = .error .reservedOpcode ∧
    decodeCommand 0xFFFFFFFFFFFFFFFF#64 = .error .reservedOpcode ∧
    decodeCommand 0x0100000000000000#64 = .error .reservedOpcode ∧
    decodeCommand 0x7100000000000000#64 = .error .reservedBitsSet ∧
    decodeCommand 0x2400000000000001#64 = .error .payloadNotZero ∧
    decodeCommand 0x3800000000000002#64 = .error .payloadNotZero ∧
    decodeCommand 0x9000000100000000#64 = .error .payloadNotZero ∧
    decodeTick 0x000001388#33 = .error .noTick := by
  decide

/-- 30_encoding.md R102: a line of a listing. -/
theorem test_line : (Instr.attach 3 2037886#32 10 11 12 13).line = "ATTACH 3, 2037886, 10, 11, 12, 13" ∧
    (Instr.step 0 (BitVec.ofInt 32 (-1))).line = "STEP 0, -1" := by
  decide

/-! Small states. -/

/-- Motor 0 of the state `A0` of 95_test_vectors.md. -/
def motorA0 : Motor :=
  { Motor.reset Config.default with
    pin1 := 2, pin2 := 3, pin3 := 4, pin4 := 5, spr := 200000#32, dps := 1800000#32, attached := true, mindelay := 1000#32 }

/-- The state `A0` of 95_test_vectors.md. -/
def a0 : State :=
  { State.reset with
    motors := (State.reset.motors).set 0 motorA0, registry := [0], timerEn := true, pinDir := 0x3C#64 }

/-- `A0` with some fields of motor 0 given. -/
def a0With (f : Motor → Motor) : State := a0.updMotor 0 f

/-- V-T1 just before the TICK at 17000. -/
def lastForward : State :=
  { a0With (fun x => { x with remaining := 1#32, fwd := true, fidx := 7#3, last := 16000#32 }) with pin := 0x24#64 }

/-- V-T2 just before the TICK at 17000. -/
def lastBackward : State :=
  { a0With (fun x => { x with remaining := 0xFFFFFFFF#32, bwd := true, bidx := 0#3, last := 16000#32 }) with pin := 0x04#64 }

/-- `A0` with three motors registered, in the order of V-R1. -/
def threeRegistered : State :=
  { a0 with motors := Vector.ofFn fun m => if m.val = 3 then Motor.reset Config.default else motorA0, registry := [2, 0, 1] }

/-- The next state of an instruction. -/
def next? (i : Instr) (s : State) : Option State :=
  match exec i s with
  | .next t => some t
  | .fault _ => none
  | .refused _ => none

/-- The refusal of an instruction. -/
def refusal? (i : Instr) (s : State) : Option Refusal :=
  match exec i s with
  | .next _ => none
  | .fault _ => none
  | .refused r => some r

/-- The levels of motor `m`'s four pins, IN1 first. -/
def coils (s : State) (m : MotorId) : List Bool :=
  [s.pinAt (s.motor m).pin1, s.pinAt (s.motor m).pin2, s.pinAt (s.motor m).pin3, s.pinAt (s.motor m).pin4]

/-! One step per theorem, expected values from 95_test_vectors.md. -/

/-- P4 line 2: the angle 176653, the pins as outputs, registered after motor 0. -/
theorem test_attach_binds : (next? (.attach 2 2037886#32 20 21 22 23) a0).map
    (fun t => ((t.motor 2).dps, (t.motor 2).pin4, (t.motor 2).attached, t.registry, t.pinDir)) =
    some (176653#32, 23, true, [0, 2], 0xF0003C#64) := by
  decide
/-- V-R1: a fourth motor is attached, but not added. -/
theorem test_attach_full : (next? (.attach 3 200000#32 0 1 2 3) threeRegistered).map
    (fun t => ((t.motor 3).attached, (t.motor 3).dps, t.registry)) = some (true, 1800000#32, [2, 0, 1]) := by
  decide
/-- V-R1: later entries move down. -/
theorem test_detach_moves_down : (next? (.detach 0) threeRegistered).map
    (fun t => ((t.motor 0).attached, t.registry, t.timerEn)) = some (false, [2, 1], true) := by
  decide
/-- V-R1: the hardware image after "DETACH 2" from `[2,1,3]`. -/
theorem test_detach_image : (next? (.detach 2) { threeRegistered with registry := [2, 1, 3] }).map
    (fun t => (t.regCount, t.regSlot 0, t.regSlot 1, t.regSlot 2)) = some (2#2, 1, 3, 0) := by
  decide
/-- V-M1: the flag; the pins do not change at the command. -/
theorem test_psave_keeps_pins : (next? (.psave 0 true) { a0 with pin := 0x24#64 }).map
    (fun t => ((t.motor 0).psave, coils t 0)) = some (true, [true, false, false, true]) := by
  decide
/-- V-M3: the flag; a pending request stays. -/
theorem test_intr_keeps_request : (next? (.intr 0 true) (a0With fun x => { x with remaining := 50#32 })).map
    (fun t => ((t.motor 0).intr, (t.motor 0).remaining)) = some (true, 50#32) := by
  decide
/-- V-C9, first row: the long way round. -/
theorem test_setpos_long_way : (next? (.setpos 0 45000000#32) (a0With fun x => { x with pos := 350000000#32 })).map
    (fun t => (t.motor 0).remaining.toInt) = some (-169) := by
  decide
/-- V-C9, fourth and last row: rounding toward zero, and the extreme product. -/
theorem test_setpos_rounding :
    setposSteps Config.default (BitVec.ofInt 32 (-1799999)) 0#32 200000#32 = 0 ∧
    setposSteps Config.default 0x80000000#32 359999999#32 4294967295#32 = -29915445 := by
  decide
/-- V-C7. -/
theorem test_setorg : (next? (.setorg 0) (a0With fun x => { x with pos := 358200000#32, last := 17000#32 })).map
    (fun t => ((t.motor 0).pos, (t.motor 0).last)) = some (0#32, 17000#32) := by
  decide
/-- V-C7. -/
theorem test_getpos : (next? (.getpos 0) (a0With fun x => { x with pos := 358200000#32 })).map (fun t => t.rsp) =
    some (some 0x1559B2C0#32) := by
  decide
/-- V-G3, V-E3: the threshold; the timestamp stays. -/
theorem test_setspd : (next? (.setspd 0 0xFFFFFFFF#32) (a0With fun x => { x with last := 10000#32 })).map
    (fun t => ((t.motor 0).mindelay.toNat, (t.motor 0).last)) = some (4294967295, 10000#32) := by
  decide
/-- V-C1: dropped. -/
theorem test_step_dropped : next? (.step 0 (BitVec.ofInt 32 (-3))) (a0With fun x => { x with remaining := 50#32 }) =
    some (a0With fun x => { x with remaining := 50#32 }) := by
  decide
/-- V-C2: overwritten. -/
theorem test_step_overwrites : (next? (.step 0 (BitVec.ofInt 32 (-3)))
    (a0With fun x => { x with remaining := 50#32, intr := true })).map (fun t => (t.motor 0).remaining) =
    some 0xFFFFFFFD#32 := by
  decide
/-- V-C10. -/
theorem test_ismov_moving : (next? (.ismov 0) (a0With fun x => { x with remaining := 0x80000000#32 })).map (fun t => t.rsp) =
    some (some 1#32) := by
  decide
/-- V-C6: 0 in mid sub-sequence with nothing pending. -/
theorem test_ismov_not_moving : (next? (.ismov 0) (a0With fun x => { x with fwd := true, fidx := 4#3 })).map
    (fun t => t.rsp) = some (some 0#32) := by
  decide
/-- V-C5: the request goes, the sub-sequence stays. -/
theorem test_stop : (next? (.stop 0) (a0With fun x => { x with remaining := 5#32, fwd := true, fidx := 4#3 })).map
    (fun t => ((t.motor 0).remaining, (t.motor 0).fwd, (t.motor 0).fidx)) = some (0#32, true, 4#3) := by
  decide
/-- V-R3: registry order `[1,0]`, the same four pins: motor 0's pattern is the one written last. -/
theorem test_tick_shared_pins : (next? (.tick 1#32)
    { a0 with
      motors := #v[{ motorA0 with mindelay := 0#32, remaining := 1#32 },
        { motorA0 with mindelay := 0#32, remaining := 0xFFFFFFFF#32 }, Motor.reset Config.default, Motor.reset Config.default]
      registry := [1, 0] }).map
    (fun t => (coils t 0, (t.motor 0).fidx, (t.motor 0).fwd, (t.motor 1).bidx, (t.motor 1).bwd, (t.motor 1).last)) =
    some ([true, true, false, false], 1#3, true, 6#3, true, 1#32) := by
  decide
/-- V-T2 at 17000: the completion crosses zero. -/
theorem test_tick_backward_completion : (next? (.tick 17000#32) lastBackward).map
    (fun t => ((t.motor 0).remaining, (t.motor 0).pos, (t.motor 0).bwd, (t.motor 0).bidx, coils t 0)) =
    some (0#32, 358200000#32, false, 7#3, [true, false, false, false]) := by
  decide

/-- V-R4: IN1 and IN4 on one pin. -/
theorem test_apply_duplicate_pin : ((a0With fun x => { x with pin1 := 7, pin4 := 7 }).applyPattern 0 0x3#4).pin = 0x08#64 := by
  decide

/-- The machine from reset: P1's first five commands and the first TICK, one clock each. -/
theorem test_run_from_reset :
    (match Sys2Proof.core.run 6
        { State.reset with
          inputs := ([0x1000030D40083105, 0x3000000000000000, 0x4000000000000000, 0x80000000000003E8, 0x9000000000000002].map
            fun w => PortIn.ofWire (.command w)) ++ [PortIn.ofWire (.tickPort (0x100000000#33 + 5000#33))] } with
      | .next t => some ((t.motor 0).remaining, (t.motor 0).fidx, (t.motor 0).last, coils t 0)
      | .fault _ => none
      | .refused _ => none) = some (2#32, 1#3, 5000#32, [true, true, false, false]) := by
  decide

/-- The host's two hooks: the word is decoded, and runs as the first event after reset. -/
theorem test_withFetchWord :
    (match step (State.reset.withFetchWord 64 0x80000000000003E8) with
      | .next t => some (t.motor 0).mindelay
      | .fault _ => none
      | .refused _ => none) = some 1000#32 := by
  decide

/-! Witnesses: every statement with hypotheses, met by concrete states and operands. -/

/-- The invariant from its parts, so that a concrete state's can be decided. -/
theorem inv_of_checks (s : State) (hc : s.cfg = Config.default)
    (hm : ∀ m, ¬ ((s.motor m).fwd = true ∧ (s.motor m).bwd = true) ∧ 0 ≤ sint32 (s.motor m).pos ∧
      sint32 (s.motor m).pos < s.cfg.fullTurn ∧
      ((uint32 (s.motor m).spr = 0 ∧ uint32 (s.motor m).dps = 0) ∨
        (s.cfg.sprMin ≤ uint32 (s.motor m).spr ∧ uint32 (s.motor m).dps = s.cfg.turnNum / uint32 (s.motor m).spr)) ∧
      ((s.motor m).attached = true → s.cfg.sprMin ≤ uint32 (s.motor m).spr) ∧
      ((s.motor m).fidx ≠ 0#3 → (s.motor m).fwd = true) ∧ ((s.motor m).bidx ≠ s.cfg.lastPlace → (s.motor m).bwd = true))
    (hf : ∀ m, ((s.motor m).fidx.toNat < s.cfg.seqLen ∧ (s.motor m).bidx.toNat < s.cfg.seqLen) ∧
      (-2 ^ (s.cfg.stepsW - 1) ≤ sint32 (s.motor m).remaining ∧ sint32 (s.motor m).remaining < 2 ^ (s.cfg.stepsW - 1)) ∧
      uint32 (s.motor m).spr < 2 ^ s.cfg.sprW ∧
      (uint32 (s.motor m).last < 2 ^ s.cfg.tsW ∧ uint32 (s.motor m).mindelay < 2 ^ s.cfg.tsW) ∧
      (hasPin s.cfg (s.motor m).pin1 = true ∧ hasPin s.cfg (s.motor m).pin2 = true ∧
        hasPin s.cfg (s.motor m).pin3 = true ∧ hasPin s.cfg (s.motor m).pin4 = true))
    (hr : s.registry.length ≤ s.cfg.regCap ∧ s.registry.Nodup ∧ (∀ m ∈ s.registry, hasMotor s.cfg m = true) ∧
      (∀ m ∈ s.registry, (s.motor m).attached = true) ∧
      (∀ m ∈ s.registry, s.pinDirAt (s.motor m).pin1 = true ∧ s.pinDirAt (s.motor m).pin2 = true ∧
        s.pinDirAt (s.motor m).pin3 = true ∧ s.pinDirAt (s.motor m).pin4 = true) ∧
      (s.registry ≠ [] → s.timerEn = true))
    (hp : ∀ p, s.pinAt p = true → s.pinDirAt p = true) : s.Inv :=
  ⟨hc ▸ legal_default, fun m => ⟨(hm m).1, (hm m).2.1, (hm m).2.2.1, (hm m).2.2.2.1, (hm m).2.2.2.2.1, (hm m).2.2.2.2.2.1, (hm m).2.2.2.2.2.2,
    (hf m).1, (hf m).2.1, (hf m).2.2.1, (hf m).2.2.2.1, (hf m).2.2.2.2⟩,
    hr.1, hr.2.1, hr.2.2.1, hr.2.2.2.1, hr.2.2.2.2.1, hr.2.2.2.2.2, hp⟩

theorem a0_inv : a0.Inv := inv_of_checks a0 rfl (by decide) (by decide) (by decide) (by decide)
theorem lastForward_inv : lastForward.Inv := inv_of_checks _ rfl (by decide) (by decide) (by decide) (by decide)
theorem lastBackward_inv : lastBackward.Inv := inv_of_checks _ rfl (by decide) (by decide) (by decide) (by decide)

/-- A clock with only a command. -/
def commandClock (w : CmdWord) : PortIn := { rst := false, cmdValid := true, cmdWord := w, tick := false, nowUs := 0#32 }
/-- A clock with only a TICK. -/
def tickClock (now : Word) : PortIn := { rst := false, cmdValid := false, cmdWord := 0#64, tick := true, nowUs := now }
/-- A clock with nothing. -/
def quietClock : PortIn := { rst := false, cmdValid := false, cmdWord := 0xFFFFFFFFFFFFFFFF#64, tick := false, nowUs := 7#32 }

theorem witness_EncodeInvertsDecode :
    decode (.command 0x5400000080000000#64) = .ok (.setpos 1 0x80000000#32) ∧
    decode (.tickPort 0x1FFFFFFFF#33) = .ok (.tick 0xFFFFFFFF#32) := by
  decide

/-- A row's word at the ends of its free bits, and a word of no row. -/
theorem witness_CommandIffMatchesItsRow :
    (∃ r ∈ opTable, r.mnemonic = "SETSPD" ∧ (0x80000000FFFFFFFF#64 : CmdWord) &&& r.mask = r.mtch ∧
      (0x8C00000000000000#64 : CmdWord) &&& r.mask = r.mtch ∧ (0x8000000100000000#64 : CmdWord) &&& r.mask ≠ r.mtch) ∧
    (∃ r ∈ opTable, r.mnemonic = "ATTACH" ∧ (0x1CFFFFFFFFFFFFFF#64 : CmdWord) &&& r.mask = r.mtch) := by
  decide

theorem witness_IllegalWordIsIgnored :
    (∀ r ∈ opTable, (0x7100000000000000#64 : CmdWord) &&& r.mask ≠ r.mtch) ∧
    ({ a0 with inputs := [commandClock 0x7100000000000000#64] }.inputs = commandClock 0x7100000000000000#64 :: []) ∧
    (commandClock 0x7100000000000000#64).rst = false ∧ (commandClock 0x7100000000000000#64).tick = false ∧
    (commandClock 0x7100000000000000#64).cmdValid = true := by
  decide

/-- The same word with a TICK in the same clock: the TICK's completion happens, and no response. -/
theorem witness_IllegalWordIsIgnored_with_tick :
    (match step { lastForward with
        inputs := [{ commandClock 0x7100000000000000#64 with tick := true, nowUs := 17000#32 }] } with
      | .next t => some (t.rsp, (t.motor 0).pos)
      | .fault _ => none
      | .refused _ => none) = some (none, 1800000#32) := by
  decide

/-- Each illegal word breaks one clause alone, at a boundary bit. -/
theorem witness_IllegalWordIsIgnored_clauses :
    [0x0C00000000000000, 0xC000000000000000, 0x1100000000000000, 0x2080000000000000, 0x5000000100000000,
      0x5080000000000000, 0x3000000000000002, 0x4080000000000000].all
      (fun w => opTable.all fun r => !r.matches (BitVec.ofNat 64 w)) = true := by
  rfl

/-- Their legal neighbours. -/
theorem witness_IllegalWordIsIgnored_legal :
    [0x1000000000000000, 0xBC00000000000000, 0x50000000FFFFFFFF, 0x3C00000000000001].all
      (fun w => opTable.any fun r => r.matches (BitVec.ofNat 64 w)) = true := by
  rfl

theorem witness_TickPortsDecode :
    (0x100000000#33 : TickWord) &&& 0x100000000#33 = 0x100000000#33 ∧
    (0x0FFFFFFFF#33 : TickWord) &&& 0x100000000#33 ≠ 0x100000000#33 := by
  decide

theorem witness_PseudoOperationsExpand :
    4294967 * 1000 < 2 ^ 32 ∧ -2 ^ 31 ≤ (-2147 : Int) * 1000000 ∧ (2147 : Int) * 1000000 < 2 ^ 31 ∧
    (Pseudo.attachs 0 200 2 3 4 5).expand = [.command 0x1000030D40083105#64] ∧
    (Pseudo.setposd 1 (-45)).expand = [.command 0x54000000FD515AC0#64] ∧
    (Pseudo.ticks 0xFFFFFFFF#32 1#32 2).expand = [.tickPort 0x1FFFFFFFF#33, .tickPort 0x100000000#33] := by
  decide

theorem witness_StepRunsThePresentedEvent :
    decode (.command (commandClock 0xB000000000000000#64).cmdWord) = .ok (.stop 0) ∧
    (commandClock 0xB000000000000000#64).rst = false ∧ (commandClock 0xB000000000000000#64).tick = false ∧
    (commandClock 0xB000000000000000#64).cmdValid = true ∧
    decode (.tickPort (tickClock 17000#32).tickWord) = .ok (.tick 17000#32) ∧
    (tickClock 17000#32).rst = false ∧ (tickClock 17000#32).cmdValid = false ∧
    OperandsExist a0.cfg (.stop 3) := by
  decide

/-- A TICK and an ISMOV in one clock; the TICK comes first: the ISMOV answers 0 after the completion. -/
theorem witness_TickBeforeCommandInOneClock :
    decodeCommand 0xA000000000000000#64 = .ok (.ismov 0) ∧
    OperandsExist lastForward.cfg (.ismov 0) ∧
    (match step { lastForward with
        inputs := [{ commandClock 0xA000000000000000#64 with tick := true, nowUs := 17000#32 }] } with
      | .next t => some (t.rsp, (t.motor 0).pos)
      | .fault _ => none
      | .refused _ => none) = some (some 0#32, 1800000#32) := by
  decide

theorem witness_ClockWithoutEventHoldsState :
    a0.inputs = [] ∧ { a0 with inputs := [quietClock] }.inputs = quietClock :: [] ∧ quietClock.rst = false ∧
    quietClock.tick = false ∧ quietClock.cmdValid = false := by
  decide

/-- A reset clock that also presents both events, in mid sub-sequence. -/
theorem witness_ResetClockPutsResetValues :
    ∃ c : PortIn, c.rst = true ∧ c.tick = true ∧ c.cmdValid = true ∧
      { lastForward with inputs := [c] }.inputs = c :: [] :=
  ⟨{ rst := true, cmdValid := true, cmdWord := 0x9000000000000001#64, tick := true, nowUs := 17000#32 }, rfl, rfl, rfl, rfl⟩

/-- A GETPOS and an ISMOV answer (the ISMOV of the last motor of four); a STOP, a TICK, an idle clock and a reset clock that also
presents the GETPOS do not, nor does the ISMOV of motor 3 where three motors exist or an id has one bit. -/
theorem witness_OnlyReadsRespond :
    (∃ t, step { a0 with inputs := [commandClock 0x7000000000000000#64] } = .next t ∧ t.rsp ≠ none) ∧
    (∃ t, step { a0 with inputs := [commandClock 0xAC00000000000000#64] } = .next t ∧ t.rsp ≠ none) ∧
    (∀ c ∈ [commandClock 0xB000000000000000#64, tickClock 17000#32, quietClock,
        { commandClock 0x7000000000000000#64 with rst := true }],
      ∃ t, step { a0 with inputs := [c], rsp := some 5#32 } = .next t ∧ t.rsp = none) ∧
    (∀ cfg ∈ [{ Config.default with nMotors := 3 }, { Config.default with nMotors := 2, midW := 1 }],
      ∃ t, step { a0 with cfg := cfg, inputs := [commandClock 0xAC00000000000000#64] } = .next t ∧ t.rsp = none) := by
  refine ⟨⟨_, rfl, by decide⟩, ⟨_, rfl, by decide⟩, fun c hc => ?_, fun cfg hc => ?_⟩ <;>
    simp only [List.mem_cons, List.not_mem_nil, or_false] at hc
  · rcases hc with rfl | rfl | rfl | rfl <;> exact ⟨_, rfl, by decide⟩
  · rcases hc with rfl | rfl <;> exact ⟨_, rfl, by decide⟩

theorem witness_EveryLegalOperationCompletes :
    AttachAccepts a0.cfg 1000#32 ∧ ¬ AttachAccepts a0.cfg 999#32 ∧ ¬ AttachAccepts a0.cfg 0#32 := by decide

/-- An ATTACH at the bound, and one below it in a clock that presents nothing (`cmd_valid = 0`, or `rst = 1`). -/
theorem witness_LegalRunsAreSafe :
    ∀ c ∈ [commandClock 0x10000003E8083105#64, { commandClock 0x1000000000083105#64 with cmdValid := false },
        { commandClock 0x1000000000083105#64 with rst := true }],
      c.rst = false → c.cmdValid = true → ∀ m spr p1 p2 p3 p4,
      decodeCommand c.cmdWord = .ok (.attach m spr p1 p2 p3 p4) → AttachAccepts a0.cfg spr := by
  intro c hc hr hv m spr p1 p2 p3 p4 h
  simp only [List.mem_cons, List.not_mem_nil, or_false] at hc
  rcases hc with rfl | rfl | rfl
  · have e : decodeCommand (commandClock 0x10000003E8083105#64).cmdWord = .ok (.attach 0 1000#32 2 3 4 5) := by decide
    rw [e] at h
    injection h with h
    injection h with _ h
    subst h
    decide
  · exact absurd hv Bool.false_ne_true
  · exact absurd hr.symm Bool.false_ne_true

/-- ATTACH: registered already, registry full, and a free slot (the last one). -/
theorem witness_AttachBindsAndRegisters :
    threeRegistered.cfg.Legal ∧ AttachAccepts threeRegistered.cfg 1000#32 ∧ 0 ∈ threeRegistered.registry ∧
    3 ∉ threeRegistered.registry ∧ threeRegistered.cfg.regCap ≤ threeRegistered.registry.length ∧
    3 ∉ { threeRegistered with registry := [2, 0] }.registry ∧
    { threeRegistered with registry := [2, 0] }.registry.length < threeRegistered.cfg.regCap :=
  ⟨legal_default, by decide⟩

/-- The step angle at both ends of `spr` (V-R2: 360000000 and 83). -/
theorem witness_StepAngleRoundsDown : a0.cfg.Legal ∧ AttachAccepts a0.cfg 1000#32 ∧ AttachAccepts a0.cfg 4294967295#32 ∧ dpsOf a0.cfg 1000#32 = 360000000#32 ∧ dpsOf a0.cfg 4294967295#32 = 83#32 :=
  ⟨legal_default, by decide⟩

theorem witness_DetachUnregisters :
    3 ∉ threeRegistered.registry ∧ threeRegistered.registry = [2] ++ 0 :: [1] ∧ (0 : MotorId) ∉ ([2] : List MotorId) := by
  decide

/-- The hardware image: full, not full, absent, and present at the first, the middle and the last slot. -/
theorem witness_RegistryImageFollowsAddAndRemove :
    threeRegistered.registry.length ≤ 3 ∧ threeRegistered.registry.Nodup ∧ 3 ∉ threeRegistered.registry ∧
    0 ∈ threeRegistered.registry ∧ threeRegistered.cfg.regCap = 3 ∧ a0.cfg.regCap = 3 ∧
    AttachAccepts a0.cfg 1000#32 ∧ a0.registry.length ≤ 3 ∧
    threeRegistered.regCount = 3#2 ∧ 3 ∉ a0.registry ∧ a0.regCount ≠ 3#2 ∧ (next? (.detach 0) threeRegistered).isSome = true ∧
    threeRegistered.regSlot 0 = 2 ∧ threeRegistered.regSlot 1 = 0 ∧ threeRegistered.regSlot 2 = 1 ∧
    2 < threeRegistered.regCount.toNat := by
  decide

theorem witness_FourthMotorIsInert :
    AttachAccepts threeRegistered.cfg 200000#32 ∧
    threeRegistered.cfg.regCap ≤ threeRegistered.registry.length ∧ 3 ∉ threeRegistered.registry := by
  decide

/-- Accepted when idle, accepted when interruptible and moving, dropped otherwise. -/
theorem witness_StepOverwritesOrIsDropped : a0.cfg.Legal ∧
    (a0.motor 0).remaining = 0#32 ∧ (a0.motor 0).intr = false ∧
    ((a0With fun x => { x with remaining := 0x80000000#32, intr := true }).motor 0).intr = true ∧
    ¬ (((a0With fun x => { x with remaining := 0xFFFFFFFF#32 }).motor 0).intr = true ∨
      ((a0With fun x => { x with remaining := 0xFFFFFFFF#32 }).motor 0).remaining = 0#32) :=
  ⟨legal_default, by decide⟩

/-- The same three cases for SETPOS, the accepted one with the extreme product of V-C9. -/
theorem witness_SetposRequestsTheQuotient : a0.cfg.Legal ∧
    (-2 ^ (a0.cfg.posW - 1) ≤ (359999999#32 : Word).toInt ∧ (359999999#32 : Word).toInt < 2 ^ (a0.cfg.posW - 1) ∧
      (4294967295#32 : Word).toNat < 2 ^ a0.cfg.sprW) ∧
    (next? (.setpos 0 0x80000000#32) (a0With fun x => { x with pos := 359999999#32, spr := 4294967295#32 })).map
      (fun t => (t.motor 0).remaining.toInt) = some (-29915445) ∧
    next? (.setpos 0 90000000#32) (a0With fun x => { x with remaining := 7#32 }) =
      some (a0With fun x => { x with remaining := 7#32 }) ∧
    (next? (.setpos 0 90000000#32) (a0With fun x => { x with remaining := 7#32, intr := true })).map
      (fun t => (t.motor 0).remaining.toInt) = some 50 :=
  ⟨legal_default, by decide⟩

theorem witness_EachRegisteredMotorTickedOnce :
    threeRegistered.registry.Nodup ∧ 1 ∈ threeRegistered.registry ∧ 3 ∉ threeRegistered.registry := by
  decide

theorem witness_LastRegisteredMotorWinsSharedPins :
    threeRegistered.registry = [2, 0] ++ [1] ∧ (1 : MotorId) ∉ ([2, 0] : List MotorId) ∧
    ((threeRegistered.updMotor 1 fun x => { x with remaining := 1#32 }).motor 1).branch ≠ .idle := by
  decide

/-- The power saver's branch also in mid sub-sequence (V-C6). -/
theorem witness_PowerSaverTickDrivesLow :
    ((a0With fun x => { x with psave := true, fwd := true, fidx := 4#3 }).motor 0).psave = true ∧
    ((a0With fun x => { x with psave := true, fwd := true, fidx := 4#3 }).motor 0).remaining = 0#32 := by
  decide

theorem witness_IdleTickWritesNothing : (a0.motor 0).branch = .idle := by decide

/-- V-G1: 999 waited is short by one, 1000 passes; the last place of the cursor completes (V-T1); the
largest sum that fits. -/
theorem witness_ForwardTick : lastForward.cfg.Legal ∧
    (¬ ((lastForward.motor 0).psave = true ∧ (lastForward.motor 0).remaining = 0#32)) ∧ (lastForward.motor 0).fwd = true ∧
    ((16999#32 : Word) - (lastForward.motor 0).last).toNat % 2 ^ lastForward.cfg.tsW < (lastForward.motor 0).mindelay.toNat ∧
    (lastForward.motor 0).mindelay.toNat ≤ ((17000#32 : Word) - (lastForward.motor 0).last).toNat % 2 ^ lastForward.cfg.tsW ∧
    (lastForward.motor 0).fidx = lastForward.cfg.lastPlace ∧
    ((a0With fun x => { x with remaining := 1#32, fidx := 6#3, fwd := true }).motor 0).fidx ≠ a0.cfg.lastPlace ∧
    (2147483646#32 : Word).toInt + (1#32 : Word).toNat < 2 ^ 31 ∧ (359999999#32 : Word).toInt + (360000000#32 : Word).toNat < 2 ^ 31 ∧
    ((a0With fun x => { x with remaining := 1#32 }).motor 0).bwd = false ∧
    0 < ((a0With fun x => { x with remaining := 1#32 }).motor 0).remaining.toInt :=
  ⟨legal_default, by decide⟩

theorem witness_BackwardTick : lastBackward.cfg.Legal ∧
    (¬ ((lastBackward.motor 0).psave = true ∧ (lastBackward.motor 0).remaining = 0#32)) ∧ (lastBackward.motor 0).fwd = false ∧
    (lastBackward.motor 0).bwd = true ∧
    ((16999#32 : Word) - (lastBackward.motor 0).last).toNat % 2 ^ lastBackward.cfg.tsW < (lastBackward.motor 0).mindelay.toNat ∧
    (lastBackward.motor 0).mindelay.toNat ≤ ((17000#32 : Word) - (lastBackward.motor 0).last).toNat % 2 ^ lastBackward.cfg.tsW ∧
    (lastBackward.motor 0).bidx = 0#3 ∧ -2 ^ 31 ≤ (0x80000001#32 : Word).toInt - (1#32 : Word).toNat ∧
    ((a0With fun x => { x with remaining := 0x80000000#32, bidx := 1#3, bwd := true }).motor 0).bidx ≠ 0#3 ∧
    ((a0With fun x => { x with remaining := 0x80000000#32 }).motor 0).fwd = false ∧
    ((a0With fun x => { x with remaining := 0x80000000#32 }).motor 0).remaining.toInt < 0 :=
  ⟨legal_default, by decide⟩

/-- V-G2: across the clock wrap, one short and just enough. -/
theorem witness_GateComparesModularDifference : Config.default.Legal ∧
    Motor.gate { motorA0 with last := 0xFFFFFFF0#32, mindelay := 32#32 } Config.default 0x0000000F#32 = false ∧
    Motor.gate { motorA0 with last := 0xFFFFFFF0#32, mindelay := 32#32 } Config.default 0x00000010#32 = true ∧
    Motor.gate { motorA0 with last := 777#32, mindelay := 0#32 } Config.default 777#32 = true :=
  ⟨legal_default, by decide⟩

theorem witness_LastIsWrittenAtEveryPassOnly :
    lastForward.registry.Nodup ∧ (next? (.tick 17000#32) lastForward).isSome = true ∧ 0 ∈ lastForward.registry ∧
    (lastForward.motor 0).passes Config.default 17000#32 = true ∧
    ¬ (0 ∈ lastForward.registry ∧ (lastForward.motor 0).passes Config.default 16999#32 = true) ∧
    (∀ now, Instr.stop 0 ≠ .tick now) ∧ (next? (.stop 0) lastForward).isSome = true :=
  ⟨by decide, by decide, by decide, by decide, by decide, fun _ h => Instr.noConfusion h, by decide⟩

/-- A pass at 16000, a blocked TICK at 16999, a pass at 17000. -/
theorem witness_PassesAreMindelayApart :
    ∃ s : State, s.registry.Nodup ∧ 0 ∈ s.registry ∧ (s.motor 0).passes Config.default 16000#32 = true ∧
      (s.afterTick 16000#32).passCount 0 [16999#32] = 0 ∧
      (((s.afterTick 16000#32).afterTicks [16999#32]).motor 0).passes Config.default 17000#32 = true :=
  ⟨a0With fun x => { x with remaining := 1#32, fwd := true, fidx := 6#3, last := 15000#32 }, by decide⟩

theorem witness_CursorMovesAtMostOncePerTick : threeRegistered.registry.Nodup := by decide

theorem witness_PositionMovesOneStepPerCompletion :
    (lastForward.Inv ∧ ∃ t, exec (.tick 17000#32) lastForward = .next t) ∧
    (lastBackward.Inv ∧ ∃ t, exec (.tick 17000#32) lastBackward = .next t) :=
  ⟨⟨lastForward_inv, _, rfl⟩, ⟨lastBackward_inv, _, rfl⟩⟩

/-- Idle, both stepping states, and the two rows of the power saver. -/
theorem witness_SequencerStateTransitions :
    (∀ s ∈ [a0, lastForward, lastBackward], ¬ ((s.motor 0).fwd = true ∧ (s.motor 0).bwd = true)) ∧
    (a0.motor 0).seqState = .idle ∧
    (lastForward.motor 0).seqState = .steppingForward ∧ (lastForward.motor 0).gate Config.default 17000#32 = true ∧
    (lastForward.motor 0).gate Config.default 16999#32 = false ∧ (lastForward.motor 0).fidx = lastForward.cfg.lastPlace ∧
    (lastBackward.motor 0).seqState = .steppingBackward ∧ (lastBackward.motor 0).gate Config.default 17000#32 = true ∧
    (lastBackward.motor 0).bidx = 0#3 ∧
    ((a0With fun x => { x with psave := true, fwd := true, fidx := 4#3 }).motor 0).seqState = .steppingForward := by
  decide

/-- The three ways a completion can end: more forward, backward after a reversal, at rest. -/
theorem witness_SequencerStateTransitions_ends :
    0 < ((motorTick 0 17000#32 (lastForward.updMotor 0 fun x => { x with remaining := 2#32 })).motor 0).remaining.toInt ∧
    ((motorTick 0 17000#32 (lastForward.updMotor 0 fun x => { x with remaining := 0#32 })).motor 0).remaining.toInt < 0 ∧
    ((motorTick 0 17000#32 lastForward).motor 0).remaining = 0#32 ∧
    0 < ((motorTick 0 17000#32 (lastBackward.updMotor 0 fun x => { x with remaining := 0#32 })).motor 0).remaining.toInt ∧
    ((motorTick 0 17000#32 (lastBackward.updMotor 0 fun x => { x with remaining := 0xFFFFFFFE#32 })).motor 0).remaining.toInt < 0 ∧
    ((motorTick 0 17000#32 lastBackward).motor 0).remaining = 0#32 := by
  decide

/-- A pin of no registered motor. -/
theorem witness_TickWritesOnlyItsColumn :
    ∀ m ∈ a0.registry, (63 : PinId) ≠ (a0.motor m).pin1 ∧ (63 : PinId) ≠ (a0.motor m).pin2 ∧
      (63 : PinId) ≠ (a0.motor m).pin3 ∧ (63 : PinId) ≠ (a0.motor m).pin4 := by
  decide

theorem witness_CommandsWriteOnlyTheirColumn :
    (∀ now, Instr.step 0 5#32 ≠ .tick now) ∧
    ∃ t, exec (.step 0 5#32) a0 = .next t ∧ (t.motor 0).remaining ≠ (a0.motor 0).remaining :=
  ⟨fun _ h => Instr.noConfusion h, _, rfl, by decide⟩

/-- Two states that differ in another motor, the pins, the table and the registry's order. -/
theorem witness_ContextsAreIndependent :
    ∃ s1 s2 : State, s2.cfg = { s1.cfg with seq := s2.cfg.seq, patW := s2.cfg.patW, regCap := s2.cfg.regCap } ∧
      s1.cfg ≠ s2.cfg ∧ s1.registry.Nodup ∧ s2.registry.Nodup ∧ s1.registry ≠ s2.registry ∧ s1.pin ≠ s2.pin ∧
      s1.motor 1 ≠ s2.motor 1 ∧ s1.motor 0 = s2.motor 0 ∧ (0 ∈ s1.registry ↔ 0 ∈ s2.registry) ∧
      (next? (.tick 17000#32) s1).isSome = true ∧ (next? (.tick 17000#32) s2).isSome = true :=
  ⟨{ threeRegistered with pin := 1#64 },
    { (threeRegistered.updMotor 1 fun x => { x with remaining := 9#32 }) with
      registry := [0, 1, 2], cfg := { Config.default with seq := Vector.replicate 8 0xF#4, patW := 3, regCap := 4 } }, by decide⟩

theorem witness_CommandChangesOnlyItsMotor :
    (Instr.step 0 5#32).motor? = some 0 ∧ (1 : MotorId) ≠ 0 ∧ ∃ t, exec (.step 0 5#32) a0 = .next t :=
  ⟨rfl, by decide, _, rfl⟩

/-- Pairs of different states that agree once the hidden piece is taken away. -/
theorem witness_NeverReads :
    (a0 ≠ (a0With fun x => { x with attached := false }) ∧
      a0.hideAttached = (a0With fun x => { x with attached := false }).hideAttached) ∧
    (a0 ≠ { a0 with pin := 1#64 } ∧ a0.hidePins = { a0 with pin := 1#64 }.hidePins) ∧
    (a0 ≠ { a0 with timerEn := false } ∧ a0.hideTimer = { a0 with timerEn := false }.hideTimer) := by
  decide

/-- The timer: an ATTACH that goes on, a step that keeps it, a reset clock that clears it. -/
theorem witness_TimerEnableIsSetByAttachAndNeverRead :
    (next? (.attach 0 200000#32 2 3 4 5) State.reset).map (fun t => t.timerEn) = some true ∧ a0.timerEn = true ∧
    (∃ t, step a0 = .next t ∧ t.timerEn = true) ∧
    (∃ t, step { a0 with inputs := [{ quietClock with rst := true }] } = .next t ∧ t.timerEn = false) :=
  ⟨by decide, by decide, ⟨_, rfl, by decide⟩, ⟨_, rfl, by decide⟩⟩

theorem witness_ParametersAreConstant : ∃ t, step { a0 with inputs := [tickClock 5#32, quietClock] } = .next t := ⟨_, rfl⟩

theorem witness_EveryStepKeepsInvariant :
    a0.Inv ∧ ∃ t, step { a0 with inputs := [commandClock 0x9000000000000001#64] } = .next t := ⟨a0_inv, _, rfl⟩

theorem witness_ReachableStatesAreWrapped :
    Config.default.Legal ∧ Reachable Config.default { State.reset with inputs := [commandClock 0x1000030D40083105#64] } :=
  ⟨legal_default, Reachable.start _⟩

/-- One step forward and one back from `A0`, every TICK a pass (V-T1, V-T2 without the blocked TICKs). -/
theorem witness_MovementEndsExactly :
    a0.Inv ∧ 0 ∈ a0.registry ∧ (a0.motor 0).seqState = .idle ∧
    (a0With fun x => { x with remaining := BitVec.ofNat 32 1 }).passCount 0
      [10000#32, 11000#32, 12000#32, 13000#32, 14000#32, 15000#32, 16000#32, 17000#32] = 8 * 1 ∧
    (a0With fun x => { x with remaining := BitVec.ofInt 32 (-1) }).passCount 0
      [10000#32, 11000#32, 12000#32, 13000#32, 14000#32, 15000#32, 16000#32, 17000#32] = 8 * 1 :=
  ⟨a0_inv, by decide, by decide, by decide, by decide⟩

/-- A STOP at the last place of either cursor: one pass ends the sub-sequence, eight more the way back. -/
theorem witness_StopInMidStepReturns :
    (lastForward.Inv ∧ 0 ∈ lastForward.registry ∧ (lastForward.motor 0).fwd = true ∧ (lastForward.motor 0).psave = false ∧
      (lastForward.updMotor 0 fun x => { x with remaining := 0#32 }).passCount 0
        [17000#32, 18000#32, 19000#32, 20000#32, 21000#32, 22000#32, 23000#32, 24000#32, 25000#32] = (8 - 7) + 8) ∧
    (lastBackward.Inv ∧ 0 ∈ lastBackward.registry ∧ (lastBackward.motor 0).bwd = true ∧ (lastBackward.motor 0).psave = false ∧
      (lastBackward.updMotor 0 fun x => { x with remaining := 0#32 }).passCount 0
        [17000#32, 18000#32, 19000#32, 20000#32, 21000#32, 22000#32, 23000#32, 24000#32, 25000#32] = (0 + 1) + 8) :=
  ⟨⟨lastForward_inv, by decide, by decide, by decide, by decide⟩, ⟨lastBackward_inv, by decide, by decide, by decide, by decide⟩⟩

/-- The power saver's clause of the same statement: stopped in mid sub-sequence with the power saver on (V-C6). -/
theorem witness_StopInMidStepReturns_powerSaver :
    (a0With fun x => { x with psave := true, fwd := true, fidx := 4#3 }).Inv ∧
    ((a0With fun x => { x with psave := true, fwd := true, fidx := 4#3 }).motor 0).psave = true :=
  ⟨inv_of_checks _ rfl (by decide) (by decide) (by decide) (by decide), by decide⟩

theorem witness_InvariantHoldsAtReset : Config.default.Legal := legal_default

/-- R7's numbers, met by the default record and by one with another table. -/
theorem witness_ParametersHaveTheSpecsValues :
    ∀ c ∈ [Config.default, { Config.default with seq := Vector.replicate 8 0xF#4, regCap := 2 }],
      c.seqLen = 8 ∧ c.patW = 4 ∧ c.nMotors = 4 ∧ c.midW = 2 ∧ c.nPins = 64 ∧ c.pinW = 6 ∧ c.tsW = 32 ∧ c.stepsW = 32 ∧
      c.posW = 32 ∧ c.degDen = 1000000 ∧ c.sprW = 32 ∧ c.sprDen = 1000 ∧ c.sprMin = 1000 := by
  decide

/-- A machine of three motors, and a command that names the fourth (motor 3 of ids 0, 1, 2), with and without a TICK. -/
theorem witness_AbsentOperandsAreIllegal :
    decodeCommand (commandClock 0x9C00000000000005#64).cmdWord = .ok (.step 3 5#32) ∧
    (commandClock 0x9C00000000000005#64).rst = false ∧
    (commandClock 0x9C00000000000005#64).cmdValid = true ∧
    ¬ OperandsExist { Config.default with nMotors := 3 } (.step 3 5#32) ∧
    (match step { lastForward with
        cfg := { Config.default with nMotors := 3 }
        inputs := [{ commandClock 0x9C00000000000005#64 with tick := true, nowUs := 17000#32 }] } with
      | .next t => some ((t.motor 3).remaining, (t.motor 0).pos)
      | .fault _ => none
      | .refused _ => none) = some (0#32, 1800000#32) := by
  decide

/-- The last motor that exists is served: motor 2 of three. -/
theorem test_last_motor_exists :
    (match step { a0 with
        cfg := { Config.default with nMotors := 3 }, inputs := [commandClock 0x9800000000000005#64] } with
      | .next t => some (t.motor 2).remaining
      | .fault _ => none
      | .refused _ => none) = some 5#32 := by
  decide

/-! A legal machine at other widths (expected values by hand from the rules read at those widths; log entry 8): a table of
four entries, a 16-bit clock, 24-bit step counts, 21-bit positions in thousandths of a degree, whole steps, 40 pins. -/

def smallConfig : Config :=
  { Config.default with
    seqLen := 4, nPins := 40, tsW := 16, stepsW := 24, posW := 21, degDen := 1000, sprW := 18, sprDen := 1, sprMin := 1 }

theorem smallConfig_legal : smallConfig.Legal := by
  refine ⟨?_, ?_, ?_, ?_, ?_, ?_, ?_, ?_, ?_, ?_, ?_, ?_, ?_⟩ <;> decide

/-- Each hypothesis of `FieldsKeepTheirWidth`: a field of 32 bits and of 0, R7's numbers, and both legal machines. -/
theorem witness_FieldsKeepTheirWidth :
    smallConfig.Legal ∧ smallConfig.lastPlace = 3#3 ∧ Config.default.Legal ∧ a0.cfg.patW = 4 ∧
    (sextWrap 32 (-1) = 0xFFFFFFFF#32 ∧ sextWrap 8 200 = 0xFFFFFFC8#32 ∧ sextWrap 1 1 = 0xFFFFFFFF#32) ∧
    (Config.default.nMotors = 4 ∧ Config.default.midW = 2 ∧ Config.default.nPins = 64 ∧ Config.default.pinW = 6 ∧
      OperandsExist Config.default (.attach 3 0#32 0 1 62 63)) :=
  ⟨smallConfig_legal, by decide, legal_default, by decide, by decide, by decide⟩

/-- The last pass of a forward step: place 3 of four; 200 steps a turn are 1800 thousandths each; the step count wraps from
its most negative number to its most positive one. -/
def smallLast : State :=
  { State.resetWith smallConfig with
    motors := #v[{ motorA0 with
        spr := 200#32, dps := 1800#32, bidx := 3#3, remaining := 0xFF800000#32, pos := 359000#32, fwd := true, fidx := 3#3
        last := 0xFFF0#32, mindelay := 32#32 },
      Motor.reset smallConfig, Motor.reset smallConfig, Motor.reset smallConfig]
    registry := [0], timerEn := true, pinDir := 0x3C#64 }

/-- The 16-bit clock wraps: 31 waited blocks, 32 passes, and the bits of `now_us` above 16 do not count. -/
theorem test_small_completion :
    (next? (.tick 0x0000000F#32) smallLast).map (fun t => ((t.motor 0).fidx, (t.motor 0).pos)) = some (3#3, 359000#32) ∧
    (next? (.tick 0xABCD0010#32) smallLast).map
      (fun t => ((t.motor 0).fidx, (t.motor 0).remaining, (t.motor 0).pos, (t.motor 0).last, (t.motor 0).fwd)) =
      some (0#3, 0x007FFFFF#32, 800#32, 0x10#32, false) := by
  decide

/-- Operands keep the low bits of their fields: 24-bit counts, 16-bit thresholds, 18-bit `spr`. -/
theorem test_small_operands :
    (next? (.step 1 0x00800001#32) smallLast).map (fun t => (t.motor 1).remaining) = some 0xFF800001#32 ∧
    (next? (.setspd 1 0x00012345#32) smallLast).map (fun t => (t.motor 1).mindelay) = some 0x2345#32 ∧
    (next? (.attach 1 0x000400C8#32 1 2 3 4) smallLast).map (fun t => ((t.motor 1).spr, (t.motor 1).dps, (t.motor 1).bidx)) =
      some (200#32, 1800#32, 3#3) ∧
    refusal? (.attach 1 0x00040000#32 1 2 3 4) smallLast = some .attachSprBelowMinimum := by
  decide

/-- Pin 40 of pins 0 to 39 is absent, pin 39 is not (the model's choice, log entry 16). -/
theorem test_small_pins :
    OperandsExist smallConfig (.attach 0 200#32 0 1 2 39) ∧ ¬ OperandsExist smallConfig (.attach 0 200#32 0 1 2 40) := by
  decide

/-- ATTACH with `spr = 0` is refused also where `SPR_MIN` is 0 (93_implementation_defined.md U1). -/
theorem test_attach_zero_refused :
    refusal? (.attach 0 0#32 2 3 4 5) { a0 with cfg := { Config.default with sprMin := 0 } } = some .attachSprBelowMinimum := by
  decide

/-- ATTACHS and SETPOSD whose product does not fit wrap it (the model's choice, log entry 15). -/
theorem test_pseudo_wraps :
    (Pseudo.attachs 0 4294968 2 3 4 5).expand = [encode (.attach 0 704#32 2 3 4 5)] ∧
    (Pseudo.setposd 0 4295).expand = [encode (.setpos 0 32704#32)] := by
  decide

end Sys2Proof.Tests
end

/-! PROOFS. What 00_scope.md fixes: a clock that presents nothing holds the state (R10), the parameters (R7), and what a
field of a given width keeps (section 6). -/

namespace Sys2Proof.Machine

/-! A clock that presents nothing. -/

theorem tickPart_of_noTick (s : State) (c : PortIn) (h : c.tick = false) : s.tickPart c = s := by
  simp [State.tickPart, h]

theorem runCommandPort_of_noCommand (c : PortIn) (s : State) (h : c.cmdValid = false) : runCommandPort c s = .next s := by
  simp [runCommandPort, h]

/-- A listed clock with neither event is an idle clock: only the response falls (00_scope.md R10, 30_encoding.md R79). -/
theorem step_quietClock (s : State) (c : PortIn) (cs : List PortIn) (h : s.inputs = c :: cs) (hr : c.rst = false)
    (ht : c.tick = false) (hv : c.cmdValid = false) : step s = .next ({ s with inputs := cs } : State).clearRsp := by
  rw [step_clock s c cs h, hr, tickPart_of_noTick _ c ht, runCommandPort_of_noCommand c _ hv]
  rfl

/-- Settles O10: with no clock listed the step is `step_idle`; with a quiet one it is `step_quietClock`. -/
theorem clockWithoutEventHoldsState : Obligations.ClockWithoutEventHoldsState :=
  ⟨step_idle, step_quietClock⟩

/-! The parameters. -/

/-- R7's derived numbers, from its `DEG_DEN` and `SPR_DEN`. -/
theorem fullTurn_of_degDen (c : Config) (hd : c.degDen = 1000000) : c.fullTurn = 360000000 := by
  simp [Config.fullTurn, hd]

theorem turnNum_of_numbers (c : Config) (hd : c.degDen = 1000000) (hs : c.sprDen = 1000) : c.turnNum = 360000000000 := by
  simp [Config.turnNum, fullTurn_of_degDen c hd, hs]

/-- Settles O57: the defaults, the widths of the places and the two derived numbers' formulas are read off the definitions;
legality and the derived values are for every record with R7's numbers. -/
theorem parametersHaveTheSpecsValues : Obligations.ParametersHaveTheSpecsValues := by
  refine ⟨by decide, rfl, ?_, fun _ => ⟨rfl, rfl⟩, fun c => c.seq.length_toList, rfl, rfl, rfl, rfl, rfl, rfl⟩
  intro c hseq hpat hmot hmid hpins hpin hts hsteps hpos hdeg hsprW hsprDen hmin
  exact ⟨legal_of_numbers c hseq hpat hmot hmid hpins hpin hts hsteps hpos hsprW hdeg hsprDen hmin,
    fullTurn_of_degDen c hdeg, turnNum_of_numbers c hdeg hsprDen⟩

/-! What a field keeps. -/

/-- A table entry is read through its low `PAT_W` bits (20_memory.md R62). -/
theorem seqEntry_toNat (c : Config) (i : Cursor) : (seqEntry c i).toNat = (c.seq[i.toFin]).toNat % 2 ^ c.patW := by
  have fits : (c.seq[i.toFin]).toNat % 2 ^ c.patW < 2 ^ 4 := lt_of_le_of_lt (Nat.mod_le _ _) (c.seq[i.toFin]).isLt
  rw [seqEntry, BitVec.toNat_ofNat, Nat.mod_eq_of_lt fits]

/-- Whatever an event names is one of four motors and 64 pins (10_state.md R22, 30_encoding.md R82), so with R7's numbers
it exists. -/
theorem operandsExist_of_numbers (c : Config) (i : Instr) (hn : c.nMotors = 4) (hm : c.midW = 2) (hp : c.nPins = 64)
    (hw : c.pinW = 6) : OperandsExist c i := by
  constructor
  · intro m _
    rw [hn, hm]
    exact ⟨m.isLt, m.isLt⟩
  · intro p _
    rw [hp, hw]
    exact ⟨p.isLt, p.isLt⟩

/-- Settles O59: each clause is the law of the field it speaks of, at any width and then at the whole one. -/
theorem fieldsKeepTheirWidth : Obligations.FieldsKeepTheirWidth := by
  refine ⟨uint32_zextLow, fun n z hn => sint32_sextWrap n hn z, zextLow_whole, sextWrap_whole,
    fun s i => seqEntry_toNat s.cfg i, fun s i h => seqEntry_whole s.cfg h i, ?_, operandsExist_of_numbers⟩
  intro c hc
  have := lastPlace_toNat c hc
  omega

end Sys2Proof.Machine

/-! PROOFS. What a command does to every field of the state, said once (10_state.md R21, 40_registry_dispatch.md R110 to
R116, 42_commands.md, 43_speed_governor.md R185, 44_mode_flags.md). -/

namespace Sys2Proof.Machine

/-- The context after a request of STEP or SETPOS (42_commands.md R160). -/
def Motor.afterRequest (x : Motor) (c : Config) (n : Int) : Motor :=
  if x.acceptsRequest then { x with remaining := sextWrap c.stepsW n } else x

theorem requestSteps_eq (s : State) (m : MotorId) (n : Int) :
    s.requestSteps m n = s.updMotor m fun x => x.afterRequest s.cfg n := by
  obtain ⟨ha, e⟩ | ⟨ha, e⟩ := requestSteps_cases s m n
  · rw [e]
    exact updMotor_congr s m _ _ (by simp [Motor.afterRequest, ha])
  · rw [e, updMotor_self s m _ (by simp [Motor.afterRequest, ha])]

/-- The context of the motor that a command names, after the command: a function of that context and the parameters. -/
def Motor.afterCommand (x : Motor) (c : Config) : Instr → Motor
  | .attach _ spr p1 p2 p3 p4 => x.bindPins c spr p1 p2 p3 p4
  | .detach _ => { x with attached := false }
  | .psave _ en => { x with psave := en }
  | .intr _ en => { x with intr := en }
  | .setpos _ target => x.afterRequest c (setposSteps c target x.pos x.spr)
  | .setorg _ => { x with pos := 0#32 }
  | .getpos _ => x
  | .setspd _ us => { x with mindelay := zextLow c.tsW us }
  | .step _ n => x.afterRequest c (sint32 n)
  | .ismov _ => x
  | .stop _ => { x with remaining := 0#32 }
  | .tick _ => x

/-- The one operand check of `exec`: ATTACH's. -/
def CommandAccepted (c : Config) : Instr → Prop
  | .attach _ spr _ _ _ _ => AttachAccepts c spr
  | _ => True

/-- The registry after a command (40_registry_dispatch.md R110, R111). -/
def registryAfter (s : State) : Instr → List MotorId
  | .attach m _ _ _ _ _ => (s.regAdd m).registry
  | .detach m => s.registry.erase m
  | _ => s.registry

/-- `timer_en` after a command (40_registry_dispatch.md R115). -/
def timerAfter (old : Bool) : Instr → Bool
  | .attach .. => true
  | _ => old

/-- The direction image with these pins made outputs (40_registry_dispatch.md R112). -/
def setOutputs (ps : List PinId) (image : BitVec 64) : BitVec 64 := ps.foldl (fun b p => setBit b p true) image

/-- The response after a command that names a motor with context `x` (42_commands.md R166, R167). -/
def responseAfter (x : Motor) (old : Option Word) : Instr → Option Word
  | .getpos _ => some x.pos
  | .ismov _ => some (if x.isMoving then 1#32 else 0#32)
  | _ => old

/-- `t` is the state after the command `i`, which names motor `m`, in state `s`: every field. -/
structure CommandEffect (i : Instr) (m : MotorId) (s t : State) : Prop where
  accepted : CommandAccepted s.cfg i
  motor : ∀ k, t.motor k = if k = m then (s.motor m).afterCommand s.cfg i else s.motor k
  registry : t.registry = registryAfter s i
  timerEn : t.timerEn = timerAfter s.timerEn i
  pin : t.pin = s.pin
  pinDir : t.pinDir = setOutputs i.pins s.pinDir
  rsp : t.rsp = responseAfter (s.motor m) s.rsp i
  cfg : t.cfg = s.cfg
  inputs : t.inputs = s.inputs

/-- An operation is a command, which names one motor, or the TICK (30_encoding.md R82). -/
theorem command_or_tick (i : Instr) : (∃ m, i.motor? = some m) ∨ ∃ now, i = .tick now := by
  cases i <;> simp [Instr.motor?]

/-- The TICK and every command but a refused ATTACH go on. -/
theorem exec_goes_on (i : Instr) (s : State) (h : CommandAccepted s.cfg i) : ∃ t, exec i s = .next t := by
  cases i with
  | attach m spr p1 p2 p3 p4 => exact ⟨_, exec_attach m spr p1 p2 p3 p4 s h⟩
  | _ => exact ⟨_, rfl⟩

/-- `reg_add` reads the registry and its capacity only. -/
theorem regAdd_registry_congr (s t : State) (m : MotorId) (hr : s.registry = t.registry) (hc : s.cfg = t.cfg) :
    (s.regAdd m).registry = (t.regAdd m).registry := by
  unfold State.regAdd
  rw [hr, hc]
  split_ifs <;> simp [hr]

/-- Everything a command that goes on does. -/
theorem commandEffect_of_exec (i : Instr) (m : MotorId) (s t : State) (hm : i.motor? = some m) (he : exec i s = .next t) :
    CommandEffect i m s t := by
  cases i with
  | tick now => cases hm
  | attach k spr p1 p2 p3 p4 =>
    cases hm
    by_cases ha : AttachAccepts s.cfg spr
    · rw [exec_attach _ _ _ _ _ _ _ ha] at he
      cases he
      exact ⟨ha, fun k => by simp [motor_updMotor, Motor.afterCommand], regAdd_registry_congr _ s m rfl rfl, rfl, by simp,
        by simp [setOutputs, Instr.pins], by simp [responseAfter], by simp, by simp⟩
    · rw [exec_attach_refused _ _ _ _ _ _ _ ha] at he
      cases he
  | detach k =>
    cases hm
    cases he
    exact ⟨trivial, fun k => motor_updMotor _ m k _, rfl, rfl, rfl, rfl, rfl, rfl, rfl⟩
  | psave k en | intr k en | setorg k | setspd k us | stop k =>
    cases hm
    cases he
    exact ⟨trivial, fun k => motor_updMotor s m k _, rfl, rfl, rfl, rfl, rfl, rfl, rfl⟩
  | getpos k | ismov k =>
    cases hm
    cases he
    refine ⟨trivial, fun k => ?_, rfl, rfl, rfl, rfl, rfl, rfl, rfl⟩
    rw [respond_motor]
    split_ifs with e
    · rw [e]; rfl
    · rfl
  | setpos k target | step k n =>
    cases hm
    simp only [exec_step, exec_setpos, requestSteps_eq] at he
    cases he
    exact ⟨trivial, fun k => motor_updMotor s m k _, rfl, rfl, rfl, rfl, rfl, rfl, rfl⟩

end Sys2Proof.Machine

/-! PROOFS. What one context depends on (10_state.md R20, R35; 30_encoding.md R82). -/

namespace Sys2Proof.Machine

/-- The parameters agree but for the table, its width and the registry's capacity, which no context depends on. -/
def SameButTable (c d : Config) : Prop := d = { c with seq := d.seq, patW := d.patW, regCap := d.regCap }

theorem afterCommand_sameButTable (x : Motor) (c d : Config) (i : Instr) (h : SameButTable c d) :
    x.afterCommand c i = x.afterCommand d i := by
  rw [h]
  cases i <;> rfl

theorem afterTick_sameButTable (x : Motor) (c d : Config) (now : Word) (h : SameButTable c d) :
    x.afterTick c now = x.afterTick d now := by
  rw [h]
  rfl

/-- Settles O47: the effect of a command on each context, said once in `CommandEffect`. -/
theorem commandChangesOnlyItsMotor : Obligations.CommandChangesOnlyItsMotor := by
  intro i s t m k hm hk he
  rw [(commandEffect_of_exec i m s t hm he).motor k, if_neg hk]

/-- Settles O46: a context's next value is `afterCommand` of it where a command names the motor, `afterTick` of it where a
TICK finds the motor registered, and the context itself else. -/
theorem contextsAreIndependent : Obligations.ContextsAreIndependent := by
  intro i s1 s2 t1 t2 m hc hn1 hn2 hm hr he1 he2
  obtain ⟨k, hk⟩ | ⟨now, rfl⟩ := command_or_tick i
  · rw [(commandEffect_of_exec i k s1 t1 hk he1).motor m, (commandEffect_of_exec i k s2 t2 hk he2).motor m]
    split_ifs with e
    · rw [← e, hm]
      exact afterCommand_sameButTable _ _ _ i hc
    · exact hm
  · cases he1
    cases he2
    by_cases h1 : m ∈ s1.registry
    · rw [dispatchTicks_motor_present now _ s1 m hn1 h1, dispatchTicks_motor_present now _ s2 m hn2 (hr.1 h1), hm]
      exact afterTick_sameButTable _ _ _ now hc
    · rw [dispatchTicks_motor_absent now _ s1 m h1, dispatchTicks_motor_absent now _ s2 m (mt hr.2 h1), hm]

/-- Settles O42: the two stepping states each need an active flag or a count of their sign; where neither is there, no flag
is set and the count is neither positive nor negative. -/
theorem idleMeansNothingPendingOrActive : Obligations.IdleMeansNothingPendingOrActive := by
  intro x
  rw [← sint32_eq_zero]
  unfold Motor.seqState
  split_ifs with hf hb
  · refine iff_of_false nofun fun ⟨h0, h1, _⟩ => ?_
    simp [h0, h1] at hf
  · refine iff_of_false nofun fun ⟨h0, _, h2⟩ => ?_
    simp [h0, h2] at hb
  · simp only [not_or, not_and, Bool.not_eq_true, not_lt] at hf hb
    exact iff_of_true rfl ⟨le_antisymm (hf.2 hb.1) hb.2, hf.1, hb.1⟩

end Sys2Proof.Machine

/-! PROOFS. What no instruction reads: the attached bits, the pin images, `timer_en` (10_state.md R25, R36, R37, R38). -/

namespace Sys2Proof.Machine

/-! A context with another `attached` bit ends, in every operation, as the same context with that bit. -/

/-- The context with another `attached` bit. -/
def Motor.withAttached (x : Motor) (b : Bool) : Motor := { x with attached := b }

@[simp] theorem withAttached_branch (x : Motor) (b : Bool) : (x.withAttached b).branch = x.branch := rfl
@[simp] theorem withAttached_acceptsRequest (x : Motor) (b : Bool) :
    (x.withAttached b).acceptsRequest = x.acceptsRequest := rfl
@[simp] theorem withAttached_shown (x : Motor) (b : Bool) (c : Config) (now : Word) :
    (x.withAttached b).shown c now = x.shown c now := rfl

theorem withAttached_wrapPos (x : Motor) (b : Bool) (c : Config) :
    (x.withAttached b).wrapPos c = (x.wrapPos c).withAttached b := by
  unfold Motor.wrapPos Motor.withAttached
  split_ifs <;> rfl

theorem withAttached_afterTick (x : Motor) (b : Bool) (c : Config) (now : Word) :
    (x.withAttached b).afterTick c now = (x.afterTick c now).withAttached b := by
  unfold Motor.afterTick
  rw [withAttached_branch]
  cases x.branch with
  | powerSaver | idle => rfl
  | forward | backward =>
    simp only [apply_ite (Motor.withAttached · b), ← withAttached_wrapPos]
    rfl

theorem withAttached_afterRequest (x : Motor) (b : Bool) (c : Config) (n : Int) :
    (x.withAttached b).afterRequest c n = (x.afterRequest c n).withAttached b := by
  unfold Motor.afterRequest
  rw [withAttached_acceptsRequest]
  split_ifs <;> rfl

theorem afterRequest_attached (x : Motor) (c : Config) (n : Int) : (x.afterRequest c n).attached = x.attached := by
  unfold Motor.afterRequest
  split_ifs <;> rfl

/-- Two contexts agree but for `attached`, and there too if `a` holds. -/
def Motor.AgreesWith (a : Prop) (x y : Motor) : Prop := ∃ b, y = x.withAttached b ∧ (a → b = x.attached)

/-- Two states agree but for the attached bits, the pin images and `timer_en`; there too as far as `a`, `p` and `e` hold. -/
structure State.AgreesWith (a p e : Prop) (s t : State) : Prop where
  motor : ∀ k, (s.motor k).AgreesWith a (t.motor k)
  pin : p → s.pin = t.pin
  pinDir : p → s.pinDir = t.pinDir
  timerEn : e → s.timerEn = t.timerEn
  registry : s.registry = t.registry
  rsp : s.rsp = t.rsp
  cfg : s.cfg = t.cfg
  inputs : s.inputs = t.inputs

theorem Motor.AgreesWith.afterCommand {a : Prop} {x y : Motor} (h : x.AgreesWith a y) (c : Config) (i : Instr) :
    (x.afterCommand c i).AgreesWith a (y.afterCommand c i) := by
  obtain ⟨b, rfl, hb⟩ := h
  cases i with
  | attach | detach => exact ⟨_, rfl, fun _ => rfl⟩
  | setpos m target | step m n =>
    exact ⟨b, withAttached_afterRequest x b c _, fun ha => (hb ha).trans (afterRequest_attached x c _).symm⟩
  | _ => exact ⟨b, rfl, hb⟩

theorem Motor.AgreesWith.afterTick {a : Prop} {x y : Motor} (h : x.AgreesWith a y) (c : Config) (now : Word) :
    (x.afterTick c now).AgreesWith a (y.afterTick c now) := by
  obtain ⟨b, rfl, hb⟩ := h
  exact ⟨b, withAttached_afterTick x b c now, fun ha => by simp [afterTick_keeps, hb ha]⟩

/-- What a motor tick shows on the pins does not depend on `attached`. -/
theorem driveShown_pin_congr {a : Prop} {x y : Motor} (h : x.AgreesWith a y) (s t : State) (hp : s.pin = t.pin) (c : Config)
    (now : Word) : (s.driveShown x (x.shown c now)).pin = (t.driveShown y (y.shown c now)).pin := by
  obtain ⟨b, rfl, -⟩ := h
  rw [withAttached_shown]
  cases x.shown c now with
  | none => exact hp
  | some pat => simp [State.driveShown, State.drive, hp, Motor.withAttached]

section
variable {a p e : Prop} {s s' t : State}

theorem State.AgreesWith.motorTick (h : s.AgreesWith a p e s') (m : MotorId) (now : Word) :
    (motorTick m now s).AgreesWith a p e (motorTick m now s') := by
  exact {
    motor := fun k => by
      by_cases hk : k = m
      · subst hk
        simpa [h.cfg] using (h.motor k).afterTick s'.cfg now
      · simpa [motorTick_motor_other, hk] using h.motor k
    pin := fun hp => by
      simpa [motorTick_eq, h.cfg] using driveShown_pin_congr (h.motor m) s s' (h.pin hp) s'.cfg now
    pinDir := by simpa using h.pinDir
    timerEn := by simpa using h.timerEn
    registry := by simpa using h.registry
    rsp := by simpa using h.rsp
    cfg := by simpa using h.cfg
    inputs := by simpa using h.inputs }

theorem State.AgreesWith.dispatchTicks (h : s.AgreesWith a p e s') (now : Word) (ms : List MotorId) :
    (dispatchTicks now ms s).AgreesWith a p e (dispatchTicks now ms s') := by
  induction ms generalizing s s' with
  | nil => exact h
  | cons m ms ih => exact ih (h.motorTick m now)

/-- The effects of one command on two states that agree. -/
theorem State.AgreesWith.command {i : Instr} {m : MotorId} {t' : State} (h : s.AgreesWith a p e s')
    (ht : CommandEffect i m s t) (ht' : CommandEffect i m s' t') : t.AgreesWith a p e t' := by
  exact {
    motor := fun k => by
      rw [ht.motor, ht'.motor, h.cfg]
      split_ifs
      · exact (h.motor m).afterCommand s'.cfg i
      · exact h.motor k
    pin := fun hp => by rw [ht.pin, ht'.pin, h.pin hp]
    pinDir := fun hp => by rw [ht.pinDir, ht'.pinDir, h.pinDir hp]
    timerEn := fun he => by rw [ht.timerEn, ht'.timerEn, h.timerEn he]
    registry := by
      rw [ht.registry, ht'.registry]
      cases i with
      | attach k => exact regAdd_registry_congr s s' k h.registry h.cfg
      | detach k => exact congrArg (·.erase k) h.registry
      | _ => exact h.registry
    rsp := by
      obtain ⟨b, hb, -⟩ := h.motor m
      rw [ht.rsp, ht'.rsp, h.rsp, hb]
      cases i <;> rfl
    cfg := by rw [ht.cfg, ht'.cfg, h.cfg]
    inputs := by rw [ht.inputs, ht'.inputs, h.inputs] }

/-- From states that agree, every instruction goes on alike and to states that agree, with whichever of the three pieces. -/
theorem State.AgreesWith.exec (h : s.AgreesWith a p e s') (i : Instr) (he : exec i s = .next t) :
    ∃ t', Machine.exec i s' = .next t' ∧ t.AgreesWith a p e t' := by
  obtain ⟨m, hm⟩ | ⟨now, rfl⟩ := command_or_tick i
  · have ht := commandEffect_of_exec i m s t hm he
    obtain ⟨t', he'⟩ := exec_goes_on i s' (h.cfg ▸ ht.accepted)
    exact ⟨t', he', h.command ht (commandEffect_of_exec i m s' t' hm he')⟩
  · cases he
    rw [h.registry]
    exact ⟨_, rfl, h.dispatchTicks now s'.registry⟩

end

/-! Each hidden view is agreement outside one piece. -/

theorem agreesWith_true_iff (x y : Motor) : x.AgreesWith True y ↔ x = y := by
  constructor
  · rintro ⟨b, rfl, hb⟩
    rw [hb trivial]
    rfl
  · rintro rfl
    exact ⟨x.attached, rfl, fun _ => rfl⟩

theorem agreesWith_false_iff (x y : Motor) : x.AgreesWith False y ↔ x.withAttached false = y.withAttached false := by
  constructor
  · rintro ⟨b, rfl, -⟩
    rfl
  · intro h
    exact ⟨y.attached, congrArg (·.withAttached y.attached) h.symm, False.elim⟩

theorem hideAttached_motor (s : State) (k : MotorId) : s.hideAttached.motor k = (s.motor k).withAttached false := by
  simp [State.hideAttached, State.motor, Motor.withAttached]

theorem agreesWith_all_iff (s t : State) : s.AgreesWith True True True t ↔ s = t := by
  constructor
  · intro h
    exact State.ext_motors (fun k => (agreesWith_true_iff _ _).1 (h.motor k)) h.registry (h.timerEn trivial) (h.pin trivial)
      (h.pinDir trivial) h.rsp h.cfg h.inputs
  · rintro rfl
    exact ⟨fun k => (agreesWith_true_iff _ _).2 rfl, fun _ => rfl, fun _ => rfl, fun _ => rfl, rfl, rfl, rfl, rfl⟩

theorem hideAttached_motor_agreesWith_iff (s t : State) (k : MotorId) :
    (s.hideAttached.motor k).AgreesWith True (t.hideAttached.motor k) ↔ (s.motor k).AgreesWith False (t.motor k) := by
  rw [agreesWith_true_iff, agreesWith_false_iff, hideAttached_motor, hideAttached_motor]

theorem hideAttached_eq_iff (s t : State) : s.hideAttached = t.hideAttached ↔ s.AgreesWith False True True t := by
  have hm := hideAttached_motor_agreesWith_iff s t
  rw [← agreesWith_all_iff]
  exact ⟨fun h => ⟨fun k => (hm k).1 (h.motor k), h.pin, h.pinDir, h.timerEn, h.registry, h.rsp, h.cfg, h.inputs⟩,
    fun h => ⟨fun k => (hm k).2 (h.motor k), h.pin, h.pinDir, h.timerEn, h.registry, h.rsp, h.cfg, h.inputs⟩⟩

theorem hidePins_eq_iff (s t : State) : s.hidePins = t.hidePins ↔ s.AgreesWith True False True t := by
  rw [← agreesWith_all_iff]
  exact ⟨fun h => ⟨h.motor, False.elim, False.elim, h.timerEn, h.registry, h.rsp, h.cfg, h.inputs⟩,
    fun h => ⟨h.motor, fun _ => rfl, fun _ => rfl, h.timerEn, h.registry, h.rsp, h.cfg, h.inputs⟩⟩

theorem hideTimer_eq_iff (s t : State) : s.hideTimer = t.hideTimer ↔ s.AgreesWith True True False t := by
  rw [← agreesWith_all_iff]
  exact ⟨fun h => ⟨h.motor, h.pin, h.pinDir, False.elim, h.registry, h.rsp, h.cfg, h.inputs⟩,
    fun h => ⟨h.motor, h.pin, h.pinDir, fun _ => rfl, h.registry, h.rsp, h.cfg, h.inputs⟩⟩

/-- What hides no more than one of the three pieces hides nothing that an instruction reads. -/
theorem neverReads_of_agreesWith (hide : State → State) (a p e : Prop)
    (hh : ∀ s t, hide s = hide t ↔ s.AgreesWith a p e t) (i : Instr) : NeverReads hide i := by
  intro s s' h t he
  obtain ⟨t', he', ha⟩ := ((hh s s').1 h).exec i he
  exact ⟨t', he', (hh t t').2 ha⟩

/-- Settles O48: agreement in everything but the attached bits. -/
theorem attachedIsNeverRead : Obligations.AttachedIsNeverRead :=
  neverReads_of_agreesWith _ _ _ _ hideAttached_eq_iff

/-- Settles O49: agreement in everything but the pin images. -/
theorem pinsAreNeverRead : Obligations.PinsAreNeverRead :=
  neverReads_of_agreesWith _ _ _ _ hidePins_eq_iff

/-! The timer (10_state.md R36). -/

theorem exec_keeps_timer (i : Instr) (s t : State) (he : exec i s = .next t) (h : s.timerEn = true) : t.timerEn = true := by
  obtain ⟨m, hm⟩ | ⟨now, rfl⟩ := command_or_tick i
  · rw [(commandEffect_of_exec i m s t hm he).timerEn, h]
    cases i <;> rfl
  · cases he
    rw [dispatchTicks_timerEn, h]

theorem tickPart_timerEn (s : State) (c : PortIn) : (s.tickPart c).timerEn = s.timerEn := by
  unfold State.tickPart
  split
  · rw [afterTick_eq, dispatchTicks_timerEn]
  · rfl

theorem step_keeps_timer (s t : State) (ht : step s = .next t) (h : s.timerEn = true) :
    t.timerEn = true ∨ ∃ c cs, s.inputs = c :: cs ∧ c.rst = true := by
  obtain ⟨-, rfl⟩ | ⟨c, cs, hi, ⟨hr, -⟩ | ⟨-, rfl⟩ | ⟨-, -, i, -, -, he⟩⟩ := step_cases s t ht
  · exact .inl h
  · exact .inr ⟨c, cs, hi, hr⟩
  · exact .inl (by rw [tickPart_timerEn]; exact h)
  · exact .inl (exec_keeps_timer i _ t he (by rw [tickPart_timerEn]; exact h))

/-- Settles O50: agreement in everything but `timer_en`, the effect of ATTACH, and the cases of a step. -/
theorem timerEnableIsSetByAttachAndNeverRead : Obligations.TimerEnableIsSetByAttachAndNeverRead :=
  ⟨neverReads_of_agreesWith _ _ _ _ hideTimer_eq_iff,
    fun m _ _ _ _ _ s t he => (commandEffect_of_exec _ m s t rfl he).timerEn, step_keeps_timer⟩

end Sys2Proof.Machine

/-! PROOFS. The invariant: right after reset, and over every step (10_state.md R24, R25, R38, R40 to R43). -/

namespace Sys2Proof.Machine

/-! Bounds that legal parameters give. -/

theorem lastPlace_lt (c : Config) (hc : c.Legal) : c.lastPlace.toNat < c.seqLen := by
  have := lastPlace_toNat c hc
  omega

/-- A turn is not empty, so position 0 is in it. -/
theorem zero_lt_fullTurn (c : Config) (hc : c.Legal) : sint32 0#32 < c.fullTurn := by
  have h : 0 < c.fullTurn * c.sprDen := lt_of_lt_of_le (Nat.two_pow_pos c.sprW) hc.angleFits
  exact Int.natCast_pos.2 (Nat.pos_of_mul_pos_right h)

/-- A cursor that is not at the last place has a next one. -/
theorem next_cursor_inTable (c : Config) (hc : c.Legal) (i : Cursor) (hi : i.toNat < c.seqLen) (hl : i ≠ c.lastPlace) :
    (i + 1#3).toNat < c.seqLen := by
  have h1 := lastPlace_toNat c hc
  have h2 := c.lastPlace.isLt
  have h3 : i.toNat ≠ c.lastPlace.toNat := fun e => hl (BitVec.eq_of_toNat_eq e)
  rw [BitVec.toNat_add, BitVec.toNat_ofNat]
  omega

/-- A cursor that is not at place 0 has a place before it. -/
theorem previous_cursor_inTable (n : Nat) (i : Cursor) (hi : i.toNat < n) (h0 : i ≠ 0#3) : (i - 1#3).toNat < n := by
  have h1 : i.toNat ≠ 0 := fun e => h0 (BitVec.eq_of_toNat_eq e)
  rw [BitVec.toNat_sub, BitVec.toNat_ofNat]
  omega

/-- A step count that is a wrapped number fits its field. -/
theorem remaining_fits_of_bmod (c : Config) (hc : c.Legal) (r : Word) (z : Int) (h : r.toInt = z.bmod (2 ^ c.stepsW)) :
    -2 ^ (c.stepsW - 1) ≤ sint32 r ∧ sint32 r < 2 ^ (c.stepsW - 1) := by
  obtain ⟨h1, h2⟩ := hc.stepsFit
  have e : sint32 r = sint32 (sextWrap c.stepsW z) := by rw [sint32_sextWrap c.stepsW h2]; exact h
  rw [e]
  exact sextWrap_range c.stepsW (by omega) h2 z

/-! One context. -/

theorem Motor.Inv.reset (c : Config) (hc : c.Legal) : (Motor.reset c).Inv c where
  oneDirection := by simp [Motor.reset]
  posLow := le_refl 0
  posHigh := zero_lt_fullTurn c hc
  angle := .inl ⟨rfl, rfl⟩
  attachedAngle := by simp [Motor.reset]
  fwdCursor := fun h => absurd rfl h
  bwdCursor := fun h => absurd rfl h
  cursorsInTable := ⟨hc.seqFits.1, lastPlace_lt c hc⟩
  remainingFits := ⟨neg_nonpos.2 (by positivity), by positivity⟩
  sprFits := Nat.two_pow_pos c.sprW
  timesFit := ⟨Nat.two_pow_pos c.tsW, hc.resetFits⟩
  pinsExist := by
    have h0 : 0 < c.nPins := hc.pinsFit.1
    have hp : hasPin c 0 = true := by simpa [hasPin] using h0
    exact ⟨hp, hp, hp, hp⟩

/-- The step angle is at most a turn (10_state.md R24). -/
theorem Motor.Inv.dps_le_fullTurn {c : Config} {x : Motor} (h : x.Inv c) (hc : c.Legal) : uint32 x.dps ≤ c.fullTurn := by
  obtain ⟨-, e⟩ | ⟨hs, e⟩ := h.angle
  · omega
  · rw [e]
    exact angle_le_fullTurn c hc x.spr hs

/-- A position moved by one step angle and corrected once is in the turn (41_step_sequencer.md R141). -/
theorem Motor.Inv.completed_position {c : Config} {x : Motor} (h : x.Inv c) (hc : c.Legal) (z : Int) (v : Word)
    (hz : z = x.pos.toInt + x.dps.toNat ∨ z = x.pos.toInt - x.dps.toNat)
    (hv : -2 ^ (c.posW - 1) ≤ z → z < 2 ^ (c.posW - 1) →
      v.toInt = if c.fullTurn ≤ z then z - c.fullTurn else if z < 0 then z + c.fullTurn else z) :
    0 ≤ sint32 v ∧ sint32 v < c.fullTurn := by
  have h1 : 0 ≤ x.pos.toInt := h.posLow
  have h2 : x.pos.toInt < c.fullTurn := h.posHigh
  have h3 : x.dps.toNat ≤ c.fullTurn := h.dps_le_fullTurn hc
  have h4 : 2 * (c.fullTurn : Int) < 2 ^ (c.posW - 1) := by exact_mod_cast hc.turnFits
  have e := hv (by omega) (by omega)
  unfold sint32
  split_ifs at e <;> omega

/-- A motor in the forward branch is not going backward (10_state.md R40). -/
theorem Motor.Inv.bwd_of_forward {c : Config} {x : Motor} (h : x.Inv c)
    (hd : x.fwd = true ∨ (x.bwd = false ∧ 0 < x.remaining.toInt)) : x.bwd = false := by
  obtain hf | ⟨hb, -⟩ := hd
  · exact Bool.eq_false_iff.2 fun hb => h.oneDirection ⟨hf, hb⟩
  · exact hb

theorem Motor.Inv.afterTick {c : Config} {x : Motor} (h : x.Inv c) (hc : c.Legal) (now : Word) : (x.afterTick c now).Inv c := by
  have hlast : uint32 (zextLow c.tsW now) < 2 ^ c.tsW ∧ uint32 x.mindelay < 2 ^ c.tsW :=
    ⟨uint32_zextLow_lt c.tsW now, h.timesFit.2⟩
  obtain ⟨hf, hb⟩ := h.cursorsInTable
  obtain ⟨e, -, -⟩ | ⟨-, hdir, forward⟩ | ⟨-, hfwd, -, backward⟩ := afterTick_cases x c now
  · rw [e]
    exact h
  · have hbwd := h.bwd_of_forward hdir
    obtain ⟨-, -, e⟩ | ⟨-, -, hi, e⟩ | ⟨-, -, -, r, v, e, hr, hv⟩ := forward <;> rw [e]
    · exact { h with
        oneDirection := by simp [hbwd]
        fwdCursor := fun _ => rfl }
    · exact { h with
        oneDirection := by simp [hbwd]
        fwdCursor := fun _ => rfl
        cursorsInTable := ⟨next_cursor_inTable c hc x.fidx hf hi, hb⟩
        timesFit := hlast }
    · obtain ⟨hv1, hv2⟩ := h.completed_position hc _ v (.inl rfl) (hv hc _ rfl)
      exact { h with
        oneDirection := by simp
        posLow := hv1
        posHigh := hv2
        fwdCursor := fun h0 => absurd rfl h0
        cursorsInTable := ⟨hc.seqFits.1, hb⟩
        remainingFits := remaining_fits_of_bmod c hc r _ (hr hc)
        timesFit := hlast }
  · obtain ⟨-, -, e⟩ | ⟨-, -, hi, e⟩ | ⟨-, -, -, r, v, e, hr, hv⟩ := backward <;> rw [e]
    · exact { h with
        oneDirection := by simp [hfwd]
        bwdCursor := fun _ => rfl }
    · exact { h with
        oneDirection := by simp [hfwd]
        bwdCursor := fun _ => rfl
        cursorsInTable := ⟨hf, previous_cursor_inTable c.seqLen x.bidx hb hi⟩
        timesFit := hlast }
    · obtain ⟨hv1, hv2⟩ := h.completed_position hc _ v (.inr rfl) (hv hc _ rfl)
      exact { h with
        oneDirection := by simp
        posLow := hv1
        posHigh := hv2
        bwdCursor := fun h0 => absurd rfl h0
        cursorsInTable := ⟨hf, lastPlace_lt c hc⟩
        remainingFits := remaining_fits_of_bmod c hc r _ (hr hc)
        timesFit := hlast }

theorem Motor.Inv.afterRequest {c : Config} {x : Motor} (h : x.Inv c) (hc : c.Legal) (n : Int) : (x.afterRequest c n).Inv c := by
  unfold Motor.afterRequest
  split_ifs
  · exact { h with remainingFits := sextWrap_range c.stepsW (by have := hc.stepsFit; omega) hc.stepsFit.2 n }
  · exact h

theorem Motor.Inv.bindPins {c : Config} {x : Motor} (h : x.Inv c) (hc : c.Legal) (spr : Word) (p1 p2 p3 p4 : PinId)
    (ha : AttachAccepts c spr) (hp : ∀ p ∈ [p1, p2, p3, p4], hasPin c p = true) : (x.bindPins c spr p1 p2 p3 p4).Inv c := by
  have hs : c.sprMin ≤ uint32 (zextLow c.sprW spr) := by rw [uint32_zextLow]; exact ha.2
  exact { h with
    angle := .inr ⟨hs, uint32_dpsOf c hc _ hs⟩
    attachedAngle := fun _ => hs
    sprFits := uint32_zextLow_lt c.sprW spr
    pinsExist := ⟨hp p1 (by simp), hp p2 (by simp), hp p3 (by simp), hp p4 (by simp)⟩ }

theorem Motor.Inv.afterCommand {c : Config} {x : Motor} (h : x.Inv c) (hc : c.Legal) (i : Instr) (ha : CommandAccepted c i)
    (ho : OperandsExist c i) : (x.afterCommand c i).Inv c := by
  cases i with
  | attach m spr p1 p2 p3 p4 => exact h.bindPins hc spr p1 p2 p3 p4 ha (by simpa [hasPin, Instr.pins] using ho.2)
  | detach m => exact { h with attachedAngle := fun e => Bool.noConfusion e }
  | psave m en | intr m en => exact { h with }
  | setpos m target | step m n => exact h.afterRequest hc _
  | setorg m => exact { h with posLow := le_refl 0, posHigh := zero_lt_fullTurn c hc }
  | setspd m us => exact { h with timesFit := ⟨h.timesFit.1, uint32_zextLow_lt c.tsW us⟩ }
  | stop m => exact { h with remainingFits := ⟨neg_nonpos.2 (by positivity), by positivity⟩ }
  | getpos m | ismov m | tick now => exact h

/-! Reset and the response port. -/

theorem State.Inv.reset (c : Config) (hc : c.Legal) : (State.resetWith c).Inv where
  legal := hc
  motors := fun m => by
    rw [resetWith_motor]
    exact Motor.Inv.reset c hc
  capacity := Nat.zero_le _
  noDuplicate := List.nodup_nil
  registeredExist := by simp [State.resetWith]
  registeredAttached := by simp [State.resetWith]
  registeredOutputs := by simp [State.resetWith]
  registeredTimer := fun h => absurd rfl h
  highIsOutput := by simp [State.pinAt, State.resetWith, getBit]

/-- The coming clocks are no part of the invariant. -/
theorem State.Inv.withInputs {s : State} (h : s.Inv) (cs : List PortIn) : ({ s with inputs := cs } : State).Inv := { h with }

/-- The response port is no part of the invariant. -/
theorem State.Inv.clearRsp {s : State} (h : s.Inv) : s.clearRsp.Inv := { h with }

/-! A registered motor. -/

/-- What the invariant says of a registered motor's context: attached, its pins outputs in the direction image `dir`. -/
structure Motor.Wired (x : Motor) (dir : BitVec 64) : Prop where
  attached : x.attached = true
  outputs : getBit dir x.pin1 = true ∧ getBit dir x.pin2 = true ∧ getBit dir x.pin3 = true ∧ getBit dir x.pin4 = true

theorem State.Inv.wired {s : State} (h : s.Inv) (m : MotorId) (hm : m ∈ s.registry) : (s.motor m).Wired s.pinDir :=
  ⟨h.registeredAttached m hm, h.registeredOutputs m hm⟩

theorem Motor.Wired.afterTick {x : Motor} {dir : BitVec 64} (h : x.Wired dir) (c : Config) (now : Word) :
    (x.afterTick c now).Wired dir :=
  ⟨by simpa only [afterTick_keeps] using h.attached, by simpa only [afterTick_keeps] using h.outputs⟩

theorem Motor.Wired.afterRequest {x : Motor} {dir : BitVec 64} (h : x.Wired dir) (c : Config) (n : Int) :
    (x.afterRequest c n).Wired dir := by
  unfold Motor.afterRequest
  split_ifs
  · exact ⟨h.attached, h.outputs⟩
  · exact h

/-! A TICK. -/

/-- A motor tick raises no pin but an output (10_state.md R38). -/
theorem State.Inv.motorTick_high {s : State} (h : s.Inv) (m : MotorId) (now : Word) (hm : m ∈ s.registry) (p : PinId)
    (hp : (motorTick m now s).pinAt p = true) : s.pinDirAt p = true := by
  obtain ⟨h1, h2, h3, h4⟩ := h.registeredOutputs m hm
  by_contra hd
  have other : ∀ q, s.pinDirAt q = true → p ≠ q := fun q hq e => hd (e ▸ hq)
  rw [motorTick_pinAt_other m now s p (other _ h1) (other _ h2) (other _ h3) (other _ h4)] at hp
  exact hd (h.highIsOutput p hp)

theorem State.Inv.motorTick {s : State} (h : s.Inv) (m : MotorId) (now : Word) (hm : m ∈ s.registry) :
    (motorTick m now s).Inv := by
  have hmot : ∀ k, (Machine.motorTick m now s).motor k = if k = m then (s.motor m).afterTick s.cfg now else s.motor k := by
    intro k
    rw [motorTick_eq, motor_updMotor]
    simp
  have hw : ∀ k ∈ s.registry, ((Machine.motorTick m now s).motor k).Wired s.pinDir := by
    intro k hk
    rw [hmot]
    split_ifs
    · exact (h.wired m hm).afterTick s.cfg now
    · exact h.wired k hk
  exact {
    legal := by simpa using h.legal
    motors := fun k => by
      rw [hmot, motorTick_cfg]
      split_ifs
      · exact (h.motors m).afterTick h.legal now
      · exact h.motors k
    capacity := by simpa using h.capacity
    noDuplicate := by simpa using h.noDuplicate
    registeredExist := by simpa using h.registeredExist
    registeredAttached := by simpa using fun k hk => (hw k hk).attached
    registeredOutputs := by simpa [State.pinDirAt] using fun k hk => (hw k hk).outputs
    registeredTimer := by simpa using h.registeredTimer
    highIsOutput := fun p hp => by simpa [State.pinDirAt] using h.motorTick_high m now hm p hp }

theorem State.Inv.dispatchTicks {s : State} (h : s.Inv) (now : Word) (ms : List MotorId) (hms : ∀ m ∈ ms, m ∈ s.registry) :
    (dispatchTicks now ms s).Inv := by
  induction ms generalizing s with
  | nil => exact h
  | cons m ms ih =>
    refine ih (h.motorTick m now (hms m (by simp))) fun k hk => ?_
    rw [motorTick_registry]
    exact hms k (by simp [hk])

theorem State.Inv.afterTick {s : State} (h : s.Inv) (now : Word) : (s.afterTick now).Inv :=
  h.dispatchTicks now s.registry fun _ hm => hm

theorem State.Inv.tickPart {s : State} (h : s.Inv) (c : PortIn) : (s.tickPart c).Inv := by
  unfold State.tickPart
  split
  · exact h.afterTick c.nowUs
  · exact h

/-! A command. -/

theorem registryAfter_length_le (s : State) (i : Instr) (h : s.registry.length ≤ s.cfg.regCap) :
    (registryAfter s i).length ≤ s.cfg.regCap := by
  cases i with
  | attach m spr p1 p2 p3 p4 => exact regAdd_length_le s m h
  | detach m => exact le_trans (List.length_erase_le) h
  | _ => exact h

theorem registryAfter_nodup (s : State) (i : Instr) (h : s.registry.Nodup) : (registryAfter s i).Nodup := by
  cases i with
  | attach m spr p1 p2 p3 p4 => exact regAdd_nodup s m h
  | detach m => exact h.erase m
  | _ => exact h

/-- No command registers another motor than its own. -/
theorem mem_of_mem_registryAfter (s : State) (i : Instr) (m k : MotorId) (hm : i.motor? = some m) (hk : k ≠ m)
    (h : k ∈ registryAfter s i) : k ∈ s.registry := by
  cases i with
  | attach m' spr p1 p2 p3 p4 =>
    cases hm
    exact (regAdd_mem s m k h).resolve_right hk
  | detach m' => exact List.mem_of_mem_erase h
  | _ => exact h

/-- Outputs stay outputs, and the named pins become outputs. -/
theorem getBit_setOutputs (ps : List PinId) (image : BitVec 64) (q : PinId) :
    getBit (setOutputs ps image) q = true ↔ q ∈ ps ∨ getBit image q = true := by
  induction ps generalizing image with
  | nil => simp [setOutputs]
  | cons p ps ih =>
    have e : setOutputs (p :: ps) image = setOutputs ps (setBit image p true) := rfl
    rw [e, ih, getBit_setBit, List.mem_cons]
    split_ifs with h <;> simp [h]

theorem Motor.Wired.setOutputs {x : Motor} {dir : BitVec 64} (h : x.Wired dir) (ps : List PinId) :
    x.Wired (setOutputs ps dir) := by
  obtain ⟨h1, h2, h3, h4⟩ := h.outputs
  exact ⟨h.attached, (getBit_setOutputs ps dir _).2 (.inr h1), (getBit_setOutputs ps dir _).2 (.inr h2),
    (getBit_setOutputs ps dir _).2 (.inr h3), (getBit_setOutputs ps dir _).2 (.inr h4)⟩

theorem bindPins_wired (x : Motor) (c : Config) (spr : Word) (p1 p2 p3 p4 : PinId) (dir : BitVec 64) :
    (x.bindPins c spr p1 p2 p3 p4).Wired (setOutputs [p1, p2, p3, p4] dir) :=
  ⟨rfl, by simp [getBit_setOutputs, Motor.bindPins]⟩

/-- A command leaves its motor registered only if wired: ATTACH binds it, DETACH removes it, and the others touch neither. -/
theorem afterCommand_wired (s : State) (i : Instr) (m : MotorId) (hm : i.motor? = some m) (hn : s.registry.Nodup)
    (hr : m ∈ registryAfter s i) (h : m ∈ s.registry → (s.motor m).Wired s.pinDir) :
    ((s.motor m).afterCommand s.cfg i).Wired (setOutputs i.pins s.pinDir) := by
  cases i with
  | attach k spr p1 p2 p3 p4 => exact bindPins_wired _ _ spr p1 p2 p3 p4 _
  | detach k =>
    cases hm
    exact absurd hr hn.not_mem_erase
  | setpos k target | step k n => exact (h hr).afterRequest s.cfg _
  | _ => exact ⟨(h hr).attached, (h hr).outputs⟩

/-- Where a command leaves a motor registered the timer is on. -/
theorem timerAfter_of_registered (s : State) (i : Instr) (h : s.registry ≠ [] → s.timerEn = true)
    (hr : registryAfter s i ≠ []) : timerAfter s.timerEn i = true := by
  cases i with
  | attach => rfl
  | detach k => exact h fun e => hr (by simp [registryAfter, e])
  | _ => exact h hr

theorem State.Inv.command {s t : State} {i : Instr} {m : MotorId} (h : s.Inv) (hm : i.motor? = some m)
    (ho : OperandsExist s.cfg i) (e : CommandEffect i m s t) : t.Inv := by
  have hold : ∀ k, k ≠ m → k ∈ registryAfter s i → k ∈ s.registry := fun k => mem_of_mem_registryAfter s i m k hm
  have hw : ∀ k ∈ t.registry, (t.motor k).Wired t.pinDir := by
    intro k hk
    rw [e.registry] at hk
    rw [e.motor, e.pinDir]
    split_ifs with hkm
    · subst hkm
      exact afterCommand_wired s i k hm h.noDuplicate hk (h.wired k)
    · exact (h.wired k (hold k hkm hk)).setOutputs i.pins
  exact {
    legal := by rw [e.cfg]; exact h.legal
    motors := fun k => by
      rw [e.motor, e.cfg]
      split_ifs
      · exact (h.motors m).afterCommand h.legal i e.accepted ho
      · exact h.motors k
    capacity := by rw [e.registry, e.cfg]; exact registryAfter_length_le s i h.capacity
    noDuplicate := by rw [e.registry]; exact registryAfter_nodup s i h.noDuplicate
    registeredExist := fun k hk => by
      rw [e.registry] at hk
      rw [e.cfg]
      by_cases hkm : k = m
      · subst hkm
        simpa [hasMotor] using ho.1 k hm
      · exact h.registeredExist k (hold k hkm hk)
    registeredAttached := fun k hk => (hw k hk).attached
    registeredOutputs := fun k hk => (hw k hk).outputs
    registeredTimer := by rw [e.registry, e.timerEn]; exact timerAfter_of_registered s i h.registeredTimer
    highIsOutput := fun p hp => by
      have hs : s.pinAt p = true := by rw [← hp, State.pinAt, State.pinAt, e.pin]
      rw [State.pinDirAt, e.pinDir]
      exact (getBit_setOutputs i.pins s.pinDir p).2 (.inr (h.highIsOutput p hs)) }

/-! A step. -/

theorem State.Inv.exec {s t : State} {i : Instr} (h : s.Inv) (ho : OperandsExist s.cfg i) (he : exec i s = .next t) :
    t.Inv := by
  obtain ⟨m, hm⟩ | ⟨now, rfl⟩ := command_or_tick i
  · exact h.command hm ho (commandEffect_of_exec i m s t hm he)
  · cases he
    exact h.afterTick now

/-- Settles O52: the four ways a step can go on (`step_cases`): idle, reset, a TICK part alone, a command after it. -/
theorem everyStepKeepsInvariant : Obligations.EveryStepKeepsInvariant := by
  intro s t h ht
  obtain ⟨-, rfl⟩ | ⟨c, cs, -, ⟨-, rfl⟩ | ⟨-, rfl⟩ | ⟨-, -, i, -, ho, he⟩⟩ := step_cases s t ht
  · exact h.clearRsp
  · exact (State.Inv.reset s.cfg h.legal).withInputs cs
  · exact (h.withInputs cs).clearRsp.tickPart c
  · exact ((h.withInputs cs).clearRsp.tickPart c).exec (by simpa using ho) he

/-! Whole executions. -/

theorem exec_cfg (i : Instr) (s t : State) (he : exec i s = .next t) : t.cfg = s.cfg := by
  obtain ⟨m, hm⟩ | ⟨now, rfl⟩ := command_or_tick i
  · exact (commandEffect_of_exec i m s t hm he).cfg
  · cases he
    exact dispatchTicks_cfg now s.registry s

theorem step_cfg (s t : State) (ht : step s = .next t) : t.cfg = s.cfg := by
  obtain ⟨-, rfl⟩ | ⟨c, cs, -, ⟨-, rfl⟩ | ⟨-, rfl⟩ | ⟨-, -, i, -, -, he⟩⟩ := step_cases s t ht
  · rfl
  · rfl
  · rw [tickPart_cfg, clearRsp_cfg]
  · rw [exec_cfg i _ t he, tickPart_cfg, clearRsp_cfg]

theorem reachable_inv (cfg : Config) (s : State) (hc : cfg.Legal) (hs : Reachable cfg s) : s.Inv ∧ s.cfg = cfg := by
  induction hs with
  | start ins => exact ⟨(State.Inv.reset cfg hc).withInputs ins, rfl⟩
  | next s t _ ht ih => exact ⟨everyStepKeepsInvariant s t ih.1 ht, (step_cfg s t ht).trans ih.2⟩

/-- Settles O54: the part of the invariant that the statement names. -/
theorem reachableStatesAreWrapped : Obligations.ReachableStatesAreWrapped := by
  intro cfg s hc hs
  obtain ⟨h, rfl⟩ := reachable_inv cfg s hc hs
  refine ⟨h.capacity, h.noDuplicate, fun m => ?_⟩
  have hm := h.motors m
  exact ⟨hm.oneDirection, hm.cursorsInTable.1, hm.cursorsInTable.2, hm.posLow, hm.posHigh⟩

end Sys2Proof.Machine

/-! PROOFS. The pins, the parameters and the events of one clock (20_memory.md R62, R64 to R66, R69, R75, R77). -/

namespace Sys2Proof.Machine

/-! The pins. -/

/-- A drive writes pin levels only (20_memory.md R65). -/
theorem drive_onlyLevelsChanged (s : State) (x : Motor) (pat : Pattern) (m : MotorId) :
    OnlyMotorAndLevelsChanged m s (s.drive x pat) :=
  ⟨fun k _ => drive_motor s x pat k, drive_registry s x pat, drive_timerEn s x pat, fun _ => rfl, drive_rsp s x pat,
    drive_cfg s x pat, drive_inputs s x pat⟩

/-- Settles O31: `apply` is the drive of the motor's own context, whose levels are `pinAt_drive`. -/
theorem applyDrivesTheFourCoils : Obligations.ApplyDrivesTheFourCoils := fun m pat s =>
  ⟨pinAt_drive s (s.motor m) pat, drive_motor s (s.motor m) pat m, drive_onlyLevelsChanged s (s.motor m) pat m⟩

/-- On the driven pins nothing remains of the levels before (20_memory.md R66). -/
theorem pinAt_drive_own (s t : State) (x : Motor) (pat : Pattern) (p : PinId)
    (hp : p ∈ [x.pin1, x.pin2, x.pin3, x.pin4]) : (s.drive x pat).pinAt p = (t.drive x pat).pinAt p := by
  rw [pinAt_drive, pinAt_drive]
  split_ifs with h4 h3 h2 h1
  any_goals rfl
  simp [h1, h2, h3, h4] at hp

/-- Every branch but the idle one leaves a pattern on the pins (41_step_sequencer.md R134 to R136, R139). -/
theorem shown_of_not_idle (x : Motor) (c : Config) (now : Word) (hb : x.branch ≠ .idle) : ∃ pat, x.shown c now = some pat := by
  unfold Motor.shown
  cases h : x.branch with
  | idle => exact absurd h hb
  | powerSaver | forward | backward => exact ⟨_, rfl⟩

/-- The levels that a motor tick leaves on the motor's own pins depend on its context and the parameters alone. -/
theorem motorTick_pinAt_own (m : MotorId) (now : Word) (s t : State) (p : PinId) (hm : t.motor m = s.motor m)
    (hc : t.cfg = s.cfg) (hb : (s.motor m).branch ≠ .idle)
    (hp : p ∈ [(s.motor m).pin1, (s.motor m).pin2, (s.motor m).pin3, (s.motor m).pin4]) :
    (motorTick m now t).pinAt p = (motorTick m now s).pinAt p := by
  obtain ⟨pat, hpat⟩ := shown_of_not_idle (s.motor m) s.cfg now hb
  rw [motorTick_pinAt, motorTick_pinAt, hm, hc, hpat]
  exact pinAt_drive_own t s (s.motor m) pat p hp

theorem dispatchTicks_append (now : Word) (ms ns : List MotorId) (s : State) :
    dispatchTicks now (ms ++ ns) s = dispatchTicks now ns (dispatchTicks now ms s) := by
  induction ms generalizing s with
  | nil => rfl
  | cons m ms ih => exact ih (motorTick m now s)

/-- Settles O32: the motor ticks before the last one leave its context and the parameters as they are. -/
theorem lastRegisteredMotorWinsSharedPins : Obligations.LastRegisteredMotorWinsSharedPins := by
  intro now s ms m hreg hm hb
  refine ⟨_, exec_tick now s, fun p hp => ?_⟩
  rw [hreg, dispatchTicks_append]
  exact motorTick_pinAt_own m now s _ p (dispatchTicks_motor_absent now ms s m hm) (dispatchTicks_cfg now ms s) hb hp

/-! The parameters and the coming clocks. -/

theorem exec_inputs (i : Instr) (s t : State) (he : exec i s = .next t) : t.inputs = s.inputs := by
  obtain ⟨m, hm⟩ | ⟨now, rfl⟩ := command_or_tick i
  · exact (commandEffect_of_exec i m s t hm he).inputs
  · cases he
    exact dispatchTicks_inputs now s.registry s

theorem tickPart_inputs (s : State) (c : PortIn) : (s.tickPart c).inputs = s.inputs := by
  unfold State.tickPart
  split
  · rw [afterTick_eq, dispatchTicks_inputs]
  · rfl

/-- A step takes one clock of the list, or finds none. -/
theorem step_inputs (s t : State) (ht : step s = .next t) : t.inputs = s.inputs.tail := by
  obtain ⟨hi, rfl⟩ | ⟨c, cs, hi, ⟨-, rfl⟩ | ⟨-, rfl⟩ | ⟨-, -, i, -, -, he⟩⟩ := step_cases s t ht
  · rw [clearRsp_inputs, hi, List.tail_nil]
  · rw [hi, takeReset_inputs, List.tail_cons]
  · rw [hi, tickPart_inputs, clearRsp_inputs, List.tail_cons]
  · rw [hi, exec_inputs i _ t he, tickPart_inputs, clearRsp_inputs, List.tail_cons]

/-- Settles O51: `cfg` and `inputs` over the cases of a step. -/
theorem parametersAreConstant : Obligations.ParametersAreConstant := fun s t ht => ⟨step_cfg s t ht, step_inputs s t ht⟩

/-! The events of one clock. -/

theorem exec_tick_of_tick (s : State) (c : PortIn) (h : c.tick = true) : exec (.tick c.nowUs) s = .next (s.tickPart c) := by
  rw [exec_tick, State.tickPart, if_pos h, afterTick_eq]

/-- A clock without reset is its TICK part and then its command port (20_memory.md R75). -/
theorem step_eventClock (s : State) (c : PortIn) (cs : List PortIn) (h : s.inputs = c :: cs) (hr : c.rst = false) :
    step s = runCommandPort c (({ s with inputs := cs, rsp := none } : State).tickPart c) := by
  rw [step_clock s c cs h, if_neg (by simp [hr])]
  rfl

/-- Settles O9: the command port runs the command on the state that the TICK leaves. -/
theorem tickBeforeCommandInOneClock : Obligations.TickBeforeCommandInOneClock := by
  intro s c cs i hi hr ht hv hd ho
  refine ⟨_, exec_tick_of_tick _ c ht, ?_⟩
  rw [step_eventClock s c cs hi hr, runCommandPort_runs c _ i hv hd (by rwa [tickPart_cfg])]

/-- Settles O58: the command port ignores the command, so the TICK part is all that the clock does. -/
theorem absentOperandsAreIllegal : Obligations.AbsentOperandsAreIllegal := by
  intro s c cs i hi hr _ hd ho
  have tickOnly : step s = .next (({ s with inputs := cs, rsp := none } : State).tickPart c) := by
    rw [step_eventClock s c cs hi hr, runCommandPort_absent c _ i hd (by rwa [tickPart_cfg])]
  constructor
  · intro ht
    rw [tickOnly, tickPart_of_noTick _ c ht]
  · intro ht
    rw [tickOnly, exec_tick_of_tick _ c ht]

end Sys2Proof.Machine

/-! PROOFS. Encodings (30_encoding.md R80 to R85, R101, R104): the opcode map as a table over the eleven operations, what the
decoder accepts said once, and the two round trips. -/

namespace Sys2Proof

open Laws
open BitVec (extractLsb'_append_extractLsb'_eq_extractLsb')

/-! The opcode map, one operation at a time (R84). -/

/-- The opcode of an operation. -/
def Op.bits : Op → BitVec 4
  | .attach => 0x1#4
  | .detach => 0x2#4
  | .psave => 0x3#4
  | .intr => 0x4#4
  | .setpos => 0x5#4
  | .setorg => 0x6#4
  | .getpos => 0x7#4
  | .setspd => 0x8#4
  | .step => 0x9#4
  | .ismov => 0xA#4
  | .stop => 0xB#4

theorem ofBits_eq_some_iff (b : BitVec 4) (o : Op) : Op.ofBits b = some o ↔ b = o.bits := by
  cases o <;> revert b <;> decide

theorem ofBits_eq_none_iff (b : BitVec 4) : Op.ofBits b = none ↔ b.toNat = 0 ∨ 12 ≤ b.toNat := by
  revert b; decide

/-- `w` is a legal word of the operation `o`: its opcode, `rsv = 0` and every must-be-zero payload bit 0. -/
def Op.Reads (o : Op) (w : CmdWord) : Prop :=
  opField w = o.bits ∧ rsvField w = 0#2 ∧ o.format.payloadOk w = true

/-- The decoder accepts exactly the legal words, and reads each with the operands of its operation. -/
theorem decodeCommand_eq_ok_iff (w : CmdWord) (i : Instr) :
    decodeCommand w = .ok i ↔ ∃ o : Op, o.Reads w ∧ o.assemble w = i := by
  unfold decodeCommand Op.Reads
  cases h : Op.ofBits (opField w) with
  | none =>
    have noOp : ∀ o : Op, opField w ≠ o.bits := fun o e => by simp [(ofBits_eq_some_iff _ o).2 e] at h
    simp [noOp]
  | some o =>
    have ho : ∀ o' : Op, opField w = o'.bits ↔ o = o' := fun o' => by rw [← ofBits_eq_some_iff, h, Option.some_inj]
    simp only [ho]
    split_ifs with hr hp <;> simp_all

theorem decodeCommand_of_reads (o : Op) (w : CmdWord) (h : o.Reads w) : decodeCommand w = .ok (o.assemble w) :=
  (decodeCommand_eq_ok_iff w _).2 ⟨o, h, rfl⟩

/-! The fields of a word put together from a header and a payload (R80, R81). -/

section
variable (k : BitVec 4) (m : MotorId) (p : BitVec 56) (h : BitVec 8)

@[simp] theorem opField_header : opField (header k m ++ p) = k := by
  unfold opField header
  rw [slice_high _ p _ _ (by decide), slice_high _ 0#2 _ _ (by decide), high_append]

@[simp] theorem midField_header : midField (header k m ++ p) = m := by
  unfold midField header
  rw [slice_high _ p _ _ (by decide), slice_high _ 0#2 _ _ (by decide), low_append]

@[simp] theorem rsvField_header : rsvField (header k m ++ p) = 0#2 := by
  unfold rsvField header
  rw [slice_high _ p _ _ (by decide), low_append]

variable (spr imm : Word) (p1 p2 p3 p4 : PinId) (en : Bool)

@[simp] theorem sprField_payloadA : sprField (h ++ payloadA spr p1 p2 p3 p4) = spr := by
  unfold sprField payloadA
  rw [slice_low h _ _ _ (by decide), slice_high _ _ _ _ (by decide),
    slice_high _ _ _ _ (by decide), slice_high _ _ _ _ (by decide), high_append]

@[simp] theorem p1Field_payloadA : p1Field (h ++ payloadA spr p1 p2 p3 p4) = p1 := by
  unfold p1Field payloadA
  rw [slice_low h _ _ _ (by decide), slice_high _ _ _ _ (by decide),
    slice_high _ _ _ _ (by decide), slice_high _ _ _ _ (by decide), low_append]

@[simp] theorem p2Field_payloadA : p2Field (h ++ payloadA spr p1 p2 p3 p4) = p2 := by
  unfold p2Field payloadA
  rw [slice_low h _ _ _ (by decide), slice_high _ _ _ _ (by decide),
    slice_high _ _ _ _ (by decide), low_append]

@[simp] theorem p3Field_payloadA : p3Field (h ++ payloadA spr p1 p2 p3 p4) = p3 := by
  unfold p3Field payloadA
  rw [slice_low h _ _ _ (by decide), slice_high _ _ _ _ (by decide), low_append]

@[simp] theorem p4Field_payloadA : p4Field (h ++ payloadA spr p1 p2 p3 p4) = p4 := by
  unfold p4Field payloadA
  rw [slice_low h _ _ _ (by decide), low_append]

@[simp] theorem immField_payloadI : immField (h ++ payloadI imm) = imm := by
  unfold immField payloadI
  rw [slice_low h _ _ _ (by decide), low_append]

@[simp] theorem enField_payloadB : enField (h ++ payloadB en) = en := by
  unfold enField payloadB
  rw [BitVec.getLsbD_append, BitVec.getLsbD_append]
  simp

theorem payloadOk_zero : CmdFormat.N.payloadOk (h ++ 0#56) = true :=
  beq_iff_eq.2 (low_append h 0#56)

theorem payloadOk_payloadI : CmdFormat.I.payloadOk (h ++ payloadI imm) = true :=
  beq_iff_eq.2 ((slice_low h _ 32 24 (by decide)).trans (high_append 0#24 imm))

theorem payloadOk_payloadB : CmdFormat.B.payloadOk (h ++ payloadB en) = true :=
  beq_iff_eq.2 ((slice_low h _ 1 55 (by decide)).trans (high_append 0#55 (BitVec.ofBool en)))

end

/-- A header with an operation's opcode, before a payload that its format allows, is a word of that operation. -/
theorem decodeCommand_header (o : Op) (m : MotorId) (p : BitVec 56) (hp : o.format.payloadOk (header o.bits m ++ p) = true) :
    decodeCommand (header o.bits m ++ p) = .ok (o.assemble (header o.bits m ++ p)) :=
  decodeCommand_of_reads o _ ⟨opField_header _ _ _, rsvField_header _ _ _, hp⟩

/-! The TICK ports (R85). -/

theorem ofBool_getLsbD {n : Nat} (w : BitVec n) (j : Nat) : BitVec.ofBool (w.getLsbD j) = w.extractLsb' j 1 := by
  refine BitVec.eq_of_getLsbD_eq fun i hi => ?_
  obtain rfl : i = 0 := by omega
  simp

theorem tickPattern_split (w : TickWord) : BitVec.ofBool (w.getLsbD 32) ++ w.extractLsb' 0 32 = w := by
  rw [ofBool_getLsbD, extractLsb'_append_extractLsb'_eq_extractLsb' (by decide), BitVec.extractLsb'_eq_self]

theorem decodeTick_eq_ok_iff (w : TickWord) (i : Instr) :
    decodeTick w = .ok i ↔ w.getLsbD 32 = true ∧ .tick (w.extractLsb' 0 32) = i := by
  unfold decodeTick
  cases w.getLsbD 32 <;> simp

theorem decodeTick_encode (now : Word) : decodeTick (1#1 ++ now) = .ok (.tick now) := by
  refine (decodeTick_eq_ok_iff _ _).2 ⟨?_, congrArg _ (low_append 1#1 now)⟩
  rw [BitVec.getLsbD_append]
  rfl

/-! The round trips. -/

/-- Settles O2: each operation's encoding has its opcode and a payload of its format, and each field reads its operand back. -/
theorem decodeInvertsEncode : Obligations.DecodeInvertsEncode := by
  intro i
  cases i with
  | attach m spr p1 p2 p3 p4 => exact (decodeCommand_header .attach m _ rfl).trans (by simp [Op.assemble])
  | detach m => exact (decodeCommand_header .detach m _ (payloadOk_zero _)).trans (by simp [Op.assemble])
  | setorg m => exact (decodeCommand_header .setorg m _ (payloadOk_zero _)).trans (by simp [Op.assemble])
  | getpos m => exact (decodeCommand_header .getpos m _ (payloadOk_zero _)).trans (by simp [Op.assemble])
  | ismov m => exact (decodeCommand_header .ismov m _ (payloadOk_zero _)).trans (by simp [Op.assemble])
  | stop m => exact (decodeCommand_header .stop m _ (payloadOk_zero _)).trans (by simp [Op.assemble])
  | psave m en => exact (decodeCommand_header .psave m _ (payloadOk_payloadB _ en)).trans (by simp [Op.assemble])
  | intr m en => exact (decodeCommand_header .intr m _ (payloadOk_payloadB _ en)).trans (by simp [Op.assemble])
  | setpos m z => exact (decodeCommand_header .setpos m _ (payloadOk_payloadI _ z)).trans (by simp [Op.assemble])
  | setspd m us => exact (decodeCommand_header .setspd m _ (payloadOk_payloadI _ us)).trans (by simp [Op.assemble])
  | step m n => exact (decodeCommand_header .step m _ (payloadOk_payloadI _ n)).trans (by simp [Op.assemble])
  | tick now => exact decodeTick_encode now

/-- A word with `rsv = 0` is its header and its payload. -/
theorem header_payload_split (w : CmdWord) (h : rsvField w = 0#2) :
    header (opField w) (midField w) ++ w.extractLsb' 0 56 = w := by
  have hh : header (opField w) (midField w) = w.extractLsb' 56 8 := by
    unfold header
    rw [← h]
    show w.extractLsb' 60 4 ++ w.extractLsb' 58 2 ++ w.extractLsb' 56 2 = _
    rw [extractLsb'_append_extractLsb'_eq_extractLsb' (by decide),
      extractLsb'_append_extractLsb'_eq_extractLsb' (by decide)]
  rw [hh, ← append_slices]

/-! The operand fields of each format, put together again, are the payload of a word that the format allows. -/

theorem payloadA_fields (w : CmdWord) :
    payloadA (sprField w) (p1Field w) (p2Field w) (p3Field w) (p4Field w) = w.extractLsb' 0 56 := by
  show w.extractLsb' 24 32 ++ w.extractLsb' 18 6 ++ w.extractLsb' 12 6 ++ w.extractLsb' 6 6 ++ w.extractLsb' 0 6 = _
  rw [extractLsb'_append_extractLsb'_eq_extractLsb' (by decide), extractLsb'_append_extractLsb'_eq_extractLsb' (by decide),
    extractLsb'_append_extractLsb'_eq_extractLsb' (by decide), extractLsb'_append_extractLsb'_eq_extractLsb' (by decide)]

theorem zero_payload (w : CmdWord) (h : CmdFormat.N.payloadOk w = true) : 0#56 = w.extractLsb' 0 56 :=
  (beq_iff_eq.1 h).symm

theorem payloadI_fields (w : CmdWord) (h : CmdFormat.I.payloadOk w = true) : payloadI (immField w) = w.extractLsb' 0 56 := by
  have h0 : w.extractLsb' 32 24 = 0#24 := beq_iff_eq.1 h
  unfold payloadI immField
  rw [← h0, extractLsb'_append_extractLsb'_eq_extractLsb' (by decide)]

theorem payloadB_fields (w : CmdWord) (h : CmdFormat.B.payloadOk w = true) : payloadB (enField w) = w.extractLsb' 0 56 := by
  have h0 : w.extractLsb' 1 55 = 0#55 := beq_iff_eq.1 h
  unfold payloadB enField
  rw [← h0, ofBool_getLsbD, extractLsb'_append_extractLsb'_eq_extractLsb' (by decide)]

/-- What a legal word is read as has that word as its encoding. -/
theorem encode_assemble (o : Op) (w : CmdWord) (h : o.Reads w) : encode (o.assemble w) = .command w := by
  obtain ⟨hop, hrsv, hp⟩ := h
  have e : header o.bits (midField w) ++ w.extractLsb' 0 56 = w := by rw [← hop, header_payload_split w hrsv]
  refine Eq.trans ?_ (congrArg Wire.command e)
  cases o with
  | attach => rw [← payloadA_fields w]; rfl
  | detach | setorg | getpos | ismov | stop => rw [← zero_payload w hp]; rfl
  | psave | intr => rw [← payloadB_fields w hp]; rfl
  | setpos | setspd | step => rw [← payloadI_fields w hp]; rfl

/-- Settles O3: a legal command word is `encode_assemble`'s, and a TICK pattern is its `tick` bit and its operand. -/
theorem encodeInvertsDecode : Obligations.EncodeInvertsDecode := by
  rintro (w | w) i h
  · obtain ⟨o, ho, rfl⟩ := (decodeCommand_eq_ok_iff w i).1 h
    exact encode_assemble o w ho
  · obtain ⟨ht, rfl⟩ := (decodeTick_eq_ok_iff w i).1 h
    have e := tickPattern_split w
    rw [ht] at e
    exact congrArg Wire.tickPort e

end Sys2Proof

/-! PROOFS. The match and mask columns of the opcode map, and the illegal words (30_encoding.md R84, R85, R100). -/

namespace Sys2Proof

open Laws
open BitVec (extractLsb'_append_extractLsb'_eq_extractLsb')

/-! A row's mask, header and payload apart. -/

/-- The payload bits that a format says must be zero (R81). -/
def CmdFormat.mustBeZero : CmdFormat → BitVec 56
  | .A => 0#56
  | .N => BitVec.allOnes 56
  | .I => BitVec.allOnes 24 ++ 0#32
  | .B => BitVec.allOnes 55 ++ 0#1

/-- The mnemonic of an operation. -/
def Op.mnemonic : Op → String
  | .attach => "ATTACH"
  | .detach => "DETACH"
  | .psave => "PSAVE"
  | .intr => "INTR"
  | .setpos => "SETPOS"
  | .setorg => "SETORG"
  | .getpos => "GETPOS"
  | .setspd => "SETSPD"
  | .step => "STEP"
  | .ismov => "ISMOV"
  | .stop => "STOP"

/-- The row of the opcode map that an operation has: the mask covers the opcode, `rsv` and the must-be-zero bits. -/
def Op.row (o : Op) : OpRow :=
  { mnemonic := o.mnemonic
    mtch := (o.bits ++ 0#2 ++ 0#2) ++ 0#56
    mask := (BitVec.allOnes 4 ++ 0#2 ++ BitVec.allOnes 2) ++ o.format.mustBeZero }

/-- The assigned operations, in the order of the opcode map. -/
def Op.all : List Op := [.attach, .detach, .psave, .intr, .setpos, .setorg, .getpos, .setspd, .step, .ismov, .stop]

theorem Op.mem_all (o : Op) : o ∈ Op.all := by
  cases o <;> decide

theorem opTable_eq_rows : opTable = Op.all.map Op.row := by
  decide

theorem mem_opTable_iff (r : OpRow) : r ∈ opTable ↔ ∃ o : Op, o.row = r := by
  rw [opTable_eq_rows, List.mem_map]
  exact exists_congr fun o => and_iff_right o.mem_all

theorem mnemonic_assemble (o : Op) (w : CmdWord) : (o.assemble w).mnemonic = o.mnemonic := by
  cases o <;> rfl

theorem Op.mnemonic_injective (o o' : Op) (h : o.mnemonic = o'.mnemonic) : o = o' := by
  have distinct : ∀ a ∈ Op.all, ∀ b ∈ Op.all, a.mnemonic = b.mnemonic → a = b := by decide
  exact distinct o o.mem_all o' o'.mem_all h

/-- A masked high part is zero exactly when it is, whatever stands below it. -/
theorem and_highMask_eq_zero_iff {a b : Nat} (x : BitVec a) (y : BitVec b) :
    (x ++ y) &&& (BitVec.allOnes a ++ 0#b) = 0#a ++ 0#b ↔ x = 0#a := by
  rw [BitVec.and_append, BitVec.and_allOnes, BitVec.and_zero, append_inj, and_iff_left rfl]

/-- The payload check is the payload part of the row's mask. -/
theorem payloadOk_iff_mask (f : CmdFormat) (w : CmdWord) :
    f.payloadOk w = true ↔ w.extractLsb' 0 56 &&& f.mustBeZero = 0#56 := by
  cases f with
  | A => simp [CmdFormat.payloadOk, CmdFormat.mustBeZero]
  | N =>
    rw [CmdFormat.mustBeZero, BitVec.and_allOnes]
    exact beq_iff_eq
  | I =>
    have split : w.extractLsb' 32 24 ++ w.extractLsb' 0 32 = w.extractLsb' 0 56 :=
      extractLsb'_append_extractLsb'_eq_extractLsb' rfl
    rw [← split]
    exact beq_iff_eq.trans (and_highMask_eq_zero_iff _ _).symm
  | B =>
    have split : w.extractLsb' 1 55 ++ w.extractLsb' 0 1 = w.extractLsb' 0 56 :=
      extractLsb'_append_extractLsb'_eq_extractLsb' rfl
    rw [← split]
    exact beq_iff_eq.trans (and_highMask_eq_zero_iff _ _).symm

/-- The opcode and `rsv` checks are the header part of the row's mask. -/
theorem header_iff_mask (o : Op) (w : CmdWord) :
    (opField w = o.bits ∧ rsvField w = 0#2) ↔
      w.extractLsb' 56 8 &&& (BitVec.allOnes 4 ++ 0#2 ++ BitVec.allOnes 2) = o.bits ++ 0#2 ++ 0#2 := by
  have split : opField w ++ w.extractLsb' 58 2 ++ rsvField w = w.extractLsb' 56 8 := by
    unfold opField rsvField
    rw [extractLsb'_append_extractLsb'_eq_extractLsb' (by decide),
      extractLsb'_append_extractLsb'_eq_extractLsb' (by decide)]
  rw [← split, BitVec.and_append, BitVec.and_append, BitVec.and_allOnes, BitVec.and_allOnes, BitVec.and_zero, append_inj,
    append_inj, and_iff_left rfl]

/-- A word meets a row's match and mask exactly when it is a legal word of the row's operation. -/
theorem row_iff_reads (o : Op) (w : CmdWord) : w &&& o.row.mask = o.row.mtch ↔ o.Reads w := by
  rw [Op.Reads, ← and_assoc, header_iff_mask, payloadOk_iff_mask]
  conv_lhs => rw [append_slices w]
  unfold Op.row
  rw [BitVec.and_append, append_inj]

/-- Settles O4: the row's match and mask say what the decoder checks, and the mnemonic says which row it is. -/
theorem commandIffMatchesItsRow : Obligations.CommandIffMatchesItsRow := by
  intro w r hr
  obtain ⟨o, rfl⟩ := (mem_opTable_iff r).1 hr
  rw [row_iff_reads]
  constructor
  · intro h
    exact ⟨o.assemble w, decodeCommand_of_reads o w h, mnemonic_assemble o w⟩
  · rintro ⟨i, hi, hm⟩
    obtain ⟨o', ho', rfl⟩ := (decodeCommand_eq_ok_iff w i).1 hi
    rw [mnemonic_assemble] at hm
    rwa [← Op.mnemonic_injective o' o hm]

/-! The illegal words (R100). -/

theorem noRow_iff (w : CmdWord) : (∀ r ∈ opTable, w &&& r.mask ≠ r.mtch) ↔ ∀ o : Op, ¬ o.Reads w := by
  simp only [mem_opTable_iff, forall_exists_index, forall_apply_eq_imp_iff, ne_eq, row_iff_reads]

theorem decode_error_of_noRow (w : CmdWord) (h : ∀ r ∈ opTable, w &&& r.mask ≠ r.mtch) :
    ∃ e, decode (.command w) = .error e := by
  cases hd : decode (.command w) with
  | error e => exact ⟨e, rfl⟩
  | ok i =>
    obtain ⟨o, ho, -⟩ := (decodeCommand_eq_ok_iff w i).1 hd
    exact absurd ho ((noRow_iff w).1 h o)

/-- A word with an assigned opcode is illegal exactly when that operation's other checks fail. -/
theorem noReads_iff_of_opcode (o : Op) (w : CmdWord) (h : opField w = o.bits) :
    (∀ o' : Op, ¬ o'.Reads w) ↔ rsvField w ≠ 0#2 ∨ o.format.payloadOk w = false := by
  have only : (∀ o' : Op, ¬ o'.Reads w) ↔ ¬ o.Reads w := by
    refine ⟨fun all => all o, fun ho o' ho' => ho ?_⟩
    have e : Op.ofBits (opField w) = some o' := (ofBits_eq_some_iff _ o').2 ho'.1
    rw [(ofBits_eq_some_iff _ o).2 h, Option.some_inj] at e
    rwa [e]
  rw [only, Op.Reads, and_iff_right h, not_and_or, Bool.not_eq_true]

/-- The bits of the opcode, `rsv` and the payload that make a word illegal. -/
theorem illegal_iff_fields (w : CmdWord) :
    (∀ r ∈ opTable, w &&& r.mask ≠ r.mtch) ↔
      ((w.extractLsb' 60 4).toNat = 0 ∨ 12 ≤ (w.extractLsb' 60 4).toNat ∨ w.extractLsb' 56 2 ≠ 0#2 ∨
       ((w.extractLsb' 60 4).toNat ∈ [2, 6, 7, 10, 11] ∧ w.extractLsb' 0 56 ≠ 0#56) ∨
       ((w.extractLsb' 60 4).toNat ∈ [5, 8, 9] ∧ w.extractLsb' 32 24 ≠ 0#24) ∨
       ((w.extractLsb' 60 4).toNat ∈ [3, 4] ∧ w.extractLsb' 1 55 ≠ 0#55)) := by
  rw [noRow_iff]
  cases ho : Op.ofBits (opField w) with
  | none =>
    have noOp : ∀ o : Op, ¬ o.Reads w := fun o h => by simp [(ofBits_eq_some_iff _ o).2 h.1] at ho
    have reserved := (ofBits_eq_none_iff _).1 ho
    rw [opField] at reserved
    exact iff_of_true noOp (or_assoc.1 (.inl reserved))
  | some o =>
    have hop := (ofBits_eq_some_iff _ o).1 ho
    rw [noReads_iff_of_opcode o w hop]
    rw [opField] at hop
    rw [hop, rsvField]
    cases o <;> simp [Op.bits, Op.format, CmdFormat.payloadOk]

end Sys2Proof

/-! PROOFS. The worked encodings, the TICK ports' match and mask and the pseudo-operations (30_encoding.md R85, R103, R104). -/

namespace Sys2Proof

open Laws

/-- Settles O1: each word is closed, so the decoder is evaluated on it. -/
theorem workedEncodingsDecode : Obligations.WorkedEncodingsDecode := by
  unfold Obligations.WorkedEncodingsDecode
  decide

/-- The TICK row's match and mask are its `tick` bit. -/
theorem tickMask_iff (w : TickWord) : w &&& 0x100000000#33 = 0x100000000#33 ↔ w.getLsbD 32 = true := by
  have mask : (0x100000000#33 : TickWord) = 1#1 ++ 0#32 := by decide
  conv_lhs => rw [← tickPattern_split w, mask]
  rw [BitVec.and_append, BitVec.and_zero, append_inj, and_iff_left rfl]
  cases w.getLsbD 32 <;> decide

/-- Settles O6: `tickMask_iff` turns the match into the bit that the decoder tests. -/
theorem tickPortsDecode : Obligations.TickPortsDecode := by
  refine ⟨fun w h => ?_, fun w h => ?_, by decide⟩
  · rw [decodeTick, if_pos ((tickMask_iff w).1 h)]
  · rw [decodeTick, if_neg (fun e => h ((tickMask_iff w).2 e))]

/-! Pseudo-operations. -/

theorem tickTrain_length (now0 dt : Word) (k : Nat) : (tickTrain now0 dt k).length = k := by
  induction k generalizing now0 with
  | zero => rfl
  | succ k ih => exact congrArg Nat.succ (ih (now0 + dt))

theorem tickTrain_getElem? (now0 dt : Word) (k j : Nat) (hj : j < k) :
    (tickTrain now0 dt k)[j]? = some (encode (.tick (now0 + BitVec.ofNat 32 j * dt))) := by
  induction k generalizing now0 j with
  | zero => omega
  | succ k ih =>
    cases j with
    | zero => simp [tickTrain]
    | succ j =>
      have time : now0 + dt + BitVec.ofNat 32 j * dt = now0 + BitVec.ofNat 32 (j + 1) * dt := by
        rw [BitVec.ofNat_add, BitVec.add_mul, BitVec.one_mul]
        ring
      rw [tickTrain, List.getElem?_cons_succ, ih (now0 + dt) j (by omega), time]

/-- Settles O7: the operand of ATTACHS and SETPOSD is exact where the product fits, and TICKS is `tickTrain`. -/
theorem pseudoOperationsExpand : Obligations.PseudoOperationsExpand := by
  refine ⟨fun _ _ => rfl, fun m steps p1 p2 p3 p4 h => ⟨_, ?_, rfl⟩, fun m deg h1 h2 => ⟨_, ?_, rfl⟩,
    fun now0 dt k => ⟨tickTrain_length now0 dt k, tickTrain_getElem? now0 dt k⟩, rfl, .reservedOpcode, by decide⟩
  · rw [BitVec.toNat_ofNat, Nat.mod_eq_of_lt h]
  · exact Machine.sint32_wrap32 _ h1 h2

end Sys2Proof

/-! PROOFS. What one clock makes of the word presented, and the response port (20_memory.md R69, R75; 30_encoding.md R79, R97,
R100). -/

namespace Sys2Proof.Machine

/-! An illegal word. -/

/-- A clock whose command word matches no row is its TICK part alone. -/
theorem step_illegalWord (s : State) (c : PortIn) (cs : List PortIn) (hi : s.inputs = c :: cs) (hr : c.rst = false)
    (hw : ∀ r ∈ opTable, c.cmdWord &&& r.mask ≠ r.mtch) :
    step s = .next (({ s with inputs := cs, rsp := none } : State).tickPart c) := by
  obtain ⟨e, he⟩ := decode_error_of_noRow c.cmdWord hw
  rw [step_eventClock s c cs hi hr, runCommandPort_illegal c _ e he]

/-- Settles O5: `illegal_iff_fields` says which words they are, `step_illegalWord` what a clock makes of one. -/
theorem illegalWordIsIgnored : Obligations.IllegalWordIsIgnored := by
  refine ⟨illegal_iff_fields, (illegal_iff_fields 0#64).2 (.inl rfl), ?_, ?_⟩
  · intro s c cs hi hr ht _ hw
    rw [step_illegalWord s c cs hi hr hw, tickPart_of_noTick _ c ht]
  · intro s c cs hi hr ht _ hw
    rw [step_illegalWord s c cs hi hr hw, exec_tick_of_tick _ c ht]

/-! The presented event. -/

theorem step_presentedCommand (s : State) (c : PortIn) (cs : List PortIn) (i : Instr) (hi : s.inputs = c :: cs)
    (hr : c.rst = false) (ht : c.tick = false) (hv : c.cmdValid = true) (hd : decode (.command c.cmdWord) = .ok i)
    (ho : OperandsExist s.cfg i) : step s = exec i { s with inputs := cs, rsp := none } := by
  rw [step_eventClock s c cs hi hr, tickPart_of_noTick _ c ht]
  exact runCommandPort_runs c _ i hv hd ho

theorem step_presentedTick (s : State) (c : PortIn) (cs : List PortIn) (i : Instr) (hi : s.inputs = c :: cs)
    (hr : c.rst = false) (hv : c.cmdValid = false) (hd : decode (.tickPort c.tickWord) = .ok i) :
    step s = exec i { s with inputs := cs, rsp := none } := by
  rw [decode_tickWord] at hd
  split_ifs at hd with ht
  cases hd
  rw [step_eventClock s c cs hi hr, runCommandPort_of_noCommand c _ hv, exec_tick_of_tick _ c ht]

theorem tickWord_ofWire (w : TickWord) : (PortIn.ofWire (.tickPort w)).tickWord = w := tickPattern_split w

/-- Settles O8: a presented encoding is one of the two kinds of event, by the wire that it stands on, and decodes to the
instruction by O2. -/
theorem stepRunsThePresentedEvent : Obligations.StepRunsThePresentedEvent := by
  refine ⟨step_presentedCommand, step_presentedTick, fun s i ho => ?_⟩
  have hd := decodeInvertsEncode i
  cases hw : encode i with
  | command w =>
    rw [hw] at hd
    exact step_presentedCommand _ _ _ i rfl rfl rfl rfl hd ho
  | tickPort w =>
    rw [hw] at hd
    exact step_presentedTick _ _ _ i rfl rfl rfl (by rwa [tickWord_ofWire])

/-! The response port. -/

theorem tickPart_rsp (s : State) (c : PortIn) : (s.tickPart c).rsp = s.rsp := by
  unfold State.tickPart
  split
  · rw [afterTick_eq, dispatchTicks_rsp]
  · rfl

theorem responseAfter_ne_none_iff (x : Motor) (i : Instr) :
    responseAfter x none i ≠ none ↔ ∃ m, i = .getpos m ∨ i = .ismov m := by
  cases i <;> simp [responseAfter]

/-- With `rsp_valid` at 0 before it, an operation answers exactly if it is one of the two reads (R97). -/
theorem exec_responds_iff (i : Instr) (s t : State) (hs : s.rsp = none) (he : exec i s = .next t) :
    t.rsp ≠ none ↔ ∃ m, i = .getpos m ∨ i = .ismov m := by
  obtain ⟨m, hm⟩ | ⟨now, rfl⟩ := command_or_tick i
  · rw [(commandEffect_of_exec i m s t hm he).rsp, hs]
    exact responseAfter_ne_none_iff (s.motor m) i
  · cases he
    rw [dispatchTicks_rsp, hs]
    simp

/-- A read's one operand is its motor (20_memory.md R69). -/
theorem operandsExist_read_iff (c : Config) (i : Instr) (m : MotorId) (h : i = .getpos m ∨ i = .ismov m) :
    OperandsExist c i ↔ m.val < c.nMotors ∧ m.val < 2 ^ c.midW := by
  obtain rfl | rfl := h <;> simp [OperandsExist, Instr.motor?, Instr.pins]

/-- The command port answers exactly for a legal read of a motor that exists. -/
theorem runCommandPort_responds_iff (c : PortIn) (s t : State) (hs : s.rsp = none) (h : runCommandPort c s = .next t) :
    t.rsp ≠ none ↔ c.cmdValid = true ∧ ∃ m : MotorId, (m.val < s.cfg.nMotors ∧ m.val < 2 ^ s.cfg.midW) ∧
      (decodeCommand c.cmdWord = .ok (.getpos m) ∨ decodeCommand c.cmdWord = .ok (.ismov m)) := by
  constructor
  · intro responds
    obtain ⟨-, e⟩ | ⟨hv, i, hd, ho, e⟩ := runCommandPort_cases c s
    · rw [h, Host.Outcome.next.injEq] at e
      exact absurd hs (e ▸ responds)
    · obtain ⟨m, hread⟩ := (exec_responds_iff i s t hs (e ▸ h)).1 responds
      refine ⟨hv, m, (operandsExist_read_iff s.cfg i m hread).1 ho, ?_⟩
      obtain rfl | rfl := hread
      · exact .inl hd
      · exact .inr hd
  · rintro ⟨hv, m, hm, hd⟩
    obtain ⟨i, hi, hread⟩ : ∃ i, decode (.command c.cmdWord) = .ok i ∧ (i = .getpos m ∨ i = .ismov m) := by
      obtain hd | hd := hd
      · exact ⟨_, hd, .inl rfl⟩
      · exact ⟨_, hd, .inr rfl⟩
    rw [runCommandPort_runs c s i hv hi ((operandsExist_read_iff s.cfg i m hread).2 hm)] at h
    exact (exec_responds_iff i s t hs h).2 ⟨m, hread⟩

/-- Settles O13: reset drops the response, the TICK part gives none, and the command port answers the reads alone. -/
theorem onlyReadsRespond : Obligations.OnlyReadsRespond := by
  intro s t c cs hi ht
  cases hr : c.rst with
  | true =>
    rw [step_clock s c cs hi, if_pos hr] at ht
    cases ht
    simp
  | false =>
    rw [step_eventClock s c cs hi hr] at ht
    rw [runCommandPort_responds_iff c _ t (tickPart_rsp _ c) ht, tickPart_cfg, and_iff_right rfl]

/-- Settles O14: the ports are read off the fields. -/
theorem outputPortsShowFields : Obligations.OutputPortsShowFields :=
  fun _ => ⟨rfl, rfl, fun _ => ⟨rfl, rfl⟩, rfl, rfl⟩

end Sys2Proof.Machine

/-! PROOFS. The registry's two commands, ATTACH and DETACH, on the state and on the hardware image, and which registered
motors a TICK visits (40_registry_dispatch.md R110 to R116, R119; 60_exceptions.md R201). -/

namespace Sys2Proof.Machine

/-! The TICK over the registry. -/

theorem dispatchTicks_eq_foldl (now : Word) (ms : List MotorId) (s : State) :
    dispatchTicks now ms s = ms.foldl (fun u k => motorTick k now u) s := by
  induction ms generalizing s with
  | nil => rfl
  | cons m ms ih => exact ih (motorTick m now s)

/-- Settles O29: the dispatch is the fold of the motor tick over the registry. -/
theorem tickVisitsRegistryInOrder : Obligations.TickVisitsRegistryInOrder := fun now s => by
  rw [exec_tick, dispatchTicks_eq_foldl]

/-- Settles O30: in a dispatch a listed motor gets the context of its own motor tick, an unlisted one keeps its own. -/
theorem eachRegisteredMotorTickedOnce : Obligations.EachRegisteredMotorTickedOnce := by
  refine fun now s hn => ⟨_, exec_tick now s, fun k => ⟨fun hk => ?_, fun hk => ?_⟩⟩
  · rw [dispatchTicks_motor_present now _ s k hn hk, motorTick_motor_same]
  · exact dispatchTicks_motor_absent now _ s k hk

/-- No train of TICKs touches a motor that is not registered (R114). -/
theorem afterTicks_motor_unregistered (nows : List Word) (s : State) (k : MotorId) (h : k ∉ s.registry) :
    (s.afterTicks nows).motor k = s.motor k := by
  induction nows generalizing s with
  | nil => rfl
  | cons now nows ih =>
    rw [State.afterTicks, ih _ (by rwa [afterTick_eq, dispatchTicks_registry]), afterTick_eq,
      dispatchTicks_motor_absent now _ s k h]

/-! The effect of a command, read off. -/

/-- A command whose operands are accepted goes on, and does everything `CommandEffect` says. -/
theorem exec_command (i : Instr) (m : MotorId) (s : State) (hm : i.motor? = some m) (h : CommandAccepted s.cfg i) :
    ∃ t, exec i s = .next t ∧ CommandEffect i m s t := by
  obtain ⟨t, ht⟩ := exec_goes_on i s h
  exact ⟨t, ht, commandEffect_of_exec i m s t hm ht⟩

section
variable {i : Instr} {m : MotorId} {s t : State}

theorem CommandEffect.motor_self (e : CommandEffect i m s t) : t.motor m = (s.motor m).afterCommand s.cfg i := by
  rw [e.motor, if_pos rfl]

theorem CommandEffect.motor_other (e : CommandEffect i m s t) (k : MotorId) (h : k ≠ m) : t.motor k = s.motor k := by
  rw [e.motor, if_neg h]

theorem CommandEffect.pinAt (e : CommandEffect i m s t) (p : PinId) : t.pinAt p = s.pinAt p :=
  congrArg (getBit · p) e.pin

theorem CommandEffect.pinDirAt (e : CommandEffect i m s t) (p : PinId) :
    t.pinDirAt p = (decide (p ∈ i.pins) || s.pinDirAt p) := by
  rw [Bool.eq_iff_iff, State.pinDirAt, e.pinDir, getBit_setOutputs, Bool.or_eq_true, decide_eq_true_iff]
  rfl

end

theorem regAdd_registry (s : State) (m : MotorId) :
    (s.regAdd m).registry =
      if m ∈ s.registry ∨ s.cfg.regCap ≤ s.registry.length then s.registry else s.registry ++ [m] := by
  obtain ⟨hm, e⟩ | ⟨-, hfull, e⟩ | ⟨hm, hroom, e⟩ := regAdd_registry_cases s m <;> rw [e]
  · rw [if_pos (.inl hm)]
  · rw [if_pos (.inr hfull)]
  · rw [if_neg (not_or.2 ⟨hm, Nat.not_le.2 hroom⟩)]

/-! ATTACH and DETACH. -/

/-- An accepted `spr` is at least `SPR_MIN` as its field keeps it. -/
theorem sprMin_le_of_accepts (c : Config) (spr : Word) (h : AttachAccepts c spr) :
    c.sprMin ≤ uint32 (zextLow c.sprW spr) := by
  rw [uint32_zextLow]
  exact h.2

/-- Settles O17: `bindPins` is the written context, its angle the quotient (`uint32_dpsOf`), and `reg_add` the new registry. -/
theorem attachBindsAndRegisters : Obligations.AttachBindsAndRegisters := by
  intro m spr p1 p2 p3 p4 s hc ha
  obtain ⟨t, ht, e⟩ := exec_command (.attach m spr p1 p2 p3 p4) m s rfl ha
  have hreg : t.registry = _ := e.registry.trans (regAdd_registry s m)
  refine ⟨t, ht, ⟨zextLow s.cfg.sprW spr, dpsOf s.cfg (zextLow s.cfg.sprW spr), uint32_zextLow _ _,
      uint32_dpsOf _ hc _ (sprMin_le_of_accepts _ _ ha), e.motor_self⟩,
    e.motor_other, fun p => ?_, fun hm => ?_, fun hm hfull => ?_, fun hm hroom => ?_,
    e.timerEn, e.pinAt, e.rsp, e.cfg, e.inputs⟩
  · rw [e.pinDirAt]
    simp [Instr.pins, Bool.or_assoc, beq_eq_decide]
  · rw [hreg, if_pos (.inl hm)]
  · rw [hreg, if_pos (.inr hfull)]
  · rw [hreg, if_neg (not_or.2 ⟨hm, Nat.not_le.2 hroom⟩)]

/-- Settles O18: the angle that ATTACH writes is a quotient, at least 1 because `spr` fits its field, and at most a turn
because `spr` is at least one step per revolution. -/
theorem stepAngleRoundsDown : Obligations.StepAngleRoundsDown := by
  intro m spr p1 p2 p3 p4 s hc ha
  obtain ⟨t, ht, ⟨v, d, hv, hd, hm⟩, -⟩ := attachBindsAndRegisters m spr p1 p2 p3 p4 s hc ha
  have hpos : 0 < v.toNat := ha.1.trans_eq hv.symm
  have hmin : s.cfg.sprMin ≤ uint32 v := ha.2.trans_eq hv.symm
  have hfits : v.toNat ≤ s.cfg.turnNum := by
    have : v.toNat < 2 ^ s.cfg.sprW := hv ▸ Nat.mod_lt _ (Nat.two_pow_pos _)
    exact le_trans this.le hc.angleFits
  refine ⟨t, ht, ?_⟩
  simp only [hm, hd]
  refine ⟨hv, Nat.div_mul_le_self _ _, ?_, Nat.div_pos hfits hpos, angle_le_fullTurn s.cfg hc v hmin⟩
  rw [Nat.add_one_mul]
  exact Nat.lt_div_mul_add hpos

/-- Settles O19: the effect of DETACH, its registry the old one with the motor erased. -/
theorem detachUnregisters : Obligations.DetachUnregisters := by
  intro m s
  obtain ⟨t, ht, e⟩ := exec_command (.detach m) m s rfl trivial
  have hreg : t.registry = s.registry.erase m := e.registry
  refine ⟨t, ht, e.motor_self, e.motor_other, fun hm => ?_, fun pre post hs hpre => ?_, e.timerEn, e.pinAt, fun p => ?_,
    e.rsp, e.cfg, e.inputs⟩
  · rw [hreg, List.erase_of_not_mem hm]
  · rw [hreg, hs, List.erase_append_right _ hpre, List.erase_cons_head]
  · rw [e.pinDirAt]
    rfl

/-- Settles O21: the full registry stays as it is, so no TICK visits the motor. -/
theorem fourthMotorIsInert : Obligations.FourthMotorIsInert := by
  intro m spr p1 p2 p3 p4 s ha hfull hm
  obtain ⟨t, ht, e⟩ := exec_command (.attach m spr p1 p2 p3 p4) m s rfl ha
  have hreg : t.registry = s.registry := by
    rw [e.registry, registryAfter, regAdd_registry, if_pos (.inr hfull)]
  refine ⟨t, ht, hreg, ?_⟩
  simp only [e.motor_self]
  refine ⟨rfl, uint32_zextLow _ _, rfl, rfl, rfl, rfl, fun nows => ?_⟩
  rw [afterTicks_motor_unregistered nows t m (hreg ▸ hm), e.motor_self]

/-! The hardware image `reg_count`, `REG[0..2]` (10_state.md R39). -/

theorem image_of_registry_eq {s t : State} (h : t.registry = s.registry) :
    t.regCount = s.regCount ∧ ∀ i, t.regSlot i = s.regSlot i := by
  simp [State.regCount, State.regSlot, h]

theorem regCount_toNat (s : State) (h : s.registry.length ≤ 3) : s.regCount.toNat = s.registry.length := by
  rw [State.regCount, BitVec.toNat_ofNat, Nat.mod_eq_of_lt (by omega)]

theorem regCount_eq_three_iff (s : State) (h : s.registry.length ≤ 3) : s.regCount = 3#2 ↔ s.registry.length = 3 := by
  rw [← regCount_toNat s h, ← BitVec.toNat_inj]
  rfl

/-- An appended motor stands in the slot at the old count. -/
theorem image_of_append (s t : State) (m : MotorId) (h : t.registry = s.registry ++ [m]) (hs : s.registry.length ≤ 3) :
    t.regCount = s.regCount + 1#2 ∧ ∀ i : Fin 3, t.regSlot i = if i.val = s.regCount.toNat then m else s.regSlot i := by
  constructor
  · simp [State.regCount, h, BitVec.ofNat_add]
  · intro i
    rw [regCount_toNat s hs, State.regSlot, State.regSlot, h]
    obtain hlt | heq | hgt := lt_trichotomy i.val s.registry.length
    · rw [if_neg hlt.ne, List.getD_append _ _ _ _ hlt]
    · rw [if_pos heq, heq, List.getD_append_right _ _ _ _ le_rfl, Nat.sub_self, List.getD_cons_zero]
    · rw [if_neg hgt.ne', List.getD_eq_default _ _ (by simpa using hgt), List.getD_eq_default _ _ hgt.le]

/-- A slot after the entry at `j` is taken out: below `j` the old one, from `j` on the one above. -/
theorem regSlot_of_eraseIdx (s t : State) (j i : Fin 3) (h : t.registry = s.registry.eraseIdx j) :
    t.regSlot i = if i < j then s.regSlot i else s.registry.getD (i.val + 1) 0 := by
  simp only [State.regSlot, h, List.getD_eq_getElem?_getD, List.getElem?_eraseIdx, Fin.lt_def]
  split_ifs <;> rfl

/-- In a registry with no motor twice, to remove a motor is to take out the slot that holds it. -/
theorem erase_eq_eraseIdx_of_regSlot (s : State) (m : MotorId) (j : Fin 3) (hn : s.registry.Nodup)
    (hj : j.val < s.registry.length) (hm : s.regSlot j = m) : s.registry.erase m = s.registry.eraseIdx j := by
  rw [State.regSlot, List.getD_eq_getElem _ _ hj] at hm
  rw [← hm, hn.erase_getElem]

theorem image_of_eraseIdx (s t : State) (j : Fin 3) (h : t.registry = s.registry.eraseIdx j)
    (hs : s.registry.length ≤ 3) (hj : j.val < s.registry.length) :
    t.regCount + 1#2 = s.regCount ∧
    (∀ i : Fin 3, i < j → t.regSlot i = s.regSlot i) ∧
    (∀ i i' : Fin 3, j ≤ i → i'.val = i.val + 1 → i'.val < s.regCount.toNat → t.regSlot i = s.regSlot i') ∧
    (∀ i : Fin 3, s.regCount.toNat ≤ i.val + 1 → t.regSlot i = 0) := by
  rw [regCount_toNat s hs]
  refine ⟨?_, fun i hi => ?_, fun i i' hi hi' _ => ?_, fun i hi => ?_⟩
  · have hlen : t.registry.length + 1 = s.registry.length := by
      rw [h, List.length_eraseIdx_add_one hj]
    rw [State.regCount, State.regCount, ← hlen, BitVec.ofNat_add]
  · rw [regSlot_of_eraseIdx s t j i h, if_pos hi]
  · rw [regSlot_of_eraseIdx s t j i h, if_neg (not_lt.2 hi), State.regSlot, hi']
  · have hij : ¬ i < j := by
      rw [Fin.lt_def]
      omega
    rw [regSlot_of_eraseIdx s t j i h, if_neg hij, List.getD_eq_default _ _ hi]

/-- Settles O20: an add appends (`image_of_append`), a remove takes out one slot (`image_of_eraseIdx`), and each does nothing
where the registry stays. -/
theorem registryImageFollowsAddAndRemove : Obligations.RegistryImageFollowsAddAndRemove := by
  constructor
  · intro m spr p1 p2 p3 p4 s hcap hs ha
    obtain ⟨t, ht, e⟩ := exec_command (.attach m spr p1 p2 p3 p4) m s rfl ha
    have hreg : t.registry = _ := e.registry.trans (regAdd_registry s m)
    rw [hcap] at hreg
    refine ⟨t, ht, fun hm => ?_, fun _ hfull => ?_, fun hm hroom => ?_⟩
    · exact image_of_registry_eq (hreg.trans (if_pos (.inl hm)))
    · rw [regCount_eq_three_iff s hs] at hfull
      exact image_of_registry_eq (hreg.trans (if_pos (.inr hfull.ge)))
    · rw [Ne, regCount_eq_three_iff s hs] at hroom
      exact image_of_append s t m (hreg.trans (if_neg (not_or.2 ⟨hm, by omega⟩))) hs
  · intro m s t hs hn he
    have hreg : t.registry = s.registry.erase m := (commandEffect_of_exec (.detach m) m s t rfl he).registry
    refine ⟨fun hm => ?_, fun j hj hslot => ?_⟩
    · exact image_of_registry_eq (hreg.trans (List.erase_of_not_mem hm))
    · rw [regCount_toNat s hs] at hj
      exact image_of_eraseIdx s t j (hreg.trans (erase_eq_eraseIdx_of_regSlot s m j hn hj hslot)) hs hj

end Sys2Proof.Machine

/-! PROOFS. Which commands may write which field (10_state.md R21, 40_registry_dispatch.md R121). -/

namespace Sys2Proof.Machine

/-- The writer columns of a context (10_state.md R21): `y` differs from `x` only in fields that a command with this mnemonic
may write. -/
structure Motor.WrittenBy (mnemonic : String) (x y : Motor) : Prop where
  tickOnly : y.fwd = x.fwd ∧ y.bwd = x.bwd ∧ y.fidx = x.fidx ∧ y.bidx = x.bidx ∧ y.last = x.last
  remaining : y.remaining ≠ x.remaining → mnemonic ∈ ["STEP", "SETPOS", "STOP"]
  pos : y.pos ≠ x.pos → mnemonic = "SETORG"
  mindelay : y.mindelay ≠ x.mindelay → mnemonic = "SETSPD"
  psave : y.psave ≠ x.psave → mnemonic = "PSAVE"
  intr : y.intr ≠ x.intr → mnemonic = "INTR"
  attached : y.attached ≠ x.attached → mnemonic ∈ ["ATTACH", "DETACH"]
  binding : (y.pin1, y.pin2, y.pin3, y.pin4, y.spr, y.dps) ≠ (x.pin1, x.pin2, x.pin3, x.pin4, x.spr, x.dps) →
    mnemonic = "ATTACH"

theorem Motor.WrittenBy.refl (mnemonic : String) (x : Motor) : x.WrittenBy mnemonic x := by
  constructor <;> simp

/-- A write of `remaining` alone, as STEP, SETPOS and STOP make it. -/
theorem writtenBy_of_remaining (mnemonic : String) (x : Motor) (r : Word) (h : mnemonic ∈ ["STEP", "SETPOS", "STOP"]) :
    x.WrittenBy mnemonic { x with remaining := r } :=
  { Motor.WrittenBy.refl mnemonic x with remaining := fun _ => h }

theorem afterRequest_writtenBy (mnemonic : String) (x : Motor) (c : Config) (n : Int)
    (h : mnemonic ∈ ["STEP", "SETPOS", "STOP"]) : x.WrittenBy mnemonic (x.afterRequest c n) := by
  unfold Motor.afterRequest
  split_ifs
  · exact writtenBy_of_remaining mnemonic x _ h
  · exact .refl mnemonic x

/-- Every command stays in its column. -/
theorem afterCommand_writtenBy (x : Motor) (c : Config) (i : Instr) : x.WrittenBy i.mnemonic (x.afterCommand c i) := by
  have same := Motor.WrittenBy.refl i.mnemonic x
  cases i with
  | attach m spr p1 p2 p3 p4 => exact { same with attached := fun _ => List.mem_cons_self, binding := fun _ => rfl }
  | detach m => exact { same with attached := fun _ => by simp [Instr.mnemonic] }
  | psave m en => exact { same with psave := fun _ => rfl }
  | intr m en => exact { same with intr := fun _ => rfl }
  | setorg m => exact { same with pos := fun _ => rfl }
  | setspd m us => exact { same with mindelay := fun _ => rfl }
  | setpos m target | step m n => exact afterRequest_writtenBy _ x c _ (by simp [Instr.mnemonic])
  | stop m => exact writtenBy_of_remaining _ x _ (by simp [Instr.mnemonic])
  | getpos m | ismov m | tick now => exact same

theorem CommandEffect.writtenBy {i : Instr} {m : MotorId} {s t : State} (e : CommandEffect i m s t) (k : MotorId) :
    (s.motor k).WrittenBy i.mnemonic (t.motor k) := by
  by_cases h : k = m
  · rw [h, e.motor_self]
    exact afterCommand_writtenBy _ s.cfg i
  · rw [e.motor_other k h]
    exact .refl _ _

theorem registryAfter_writers (s : State) (i : Instr) (h : registryAfter s i ≠ s.registry) :
    i.mnemonic ∈ ["ATTACH", "DETACH"] := by
  cases i with
  | attach | detach => simp [Instr.mnemonic]
  | _ => exact absurd rfl h

theorem timerAfter_writer (old : Bool) (i : Instr) (h : timerAfter old i ≠ old) : i.mnemonic = "ATTACH" := by
  cases i with
  | attach => rfl
  | _ => exact absurd rfl h

/-- Only ATTACH names pins (30_encoding.md R81). -/
theorem attach_of_mem_pins (i : Instr) (p : PinId) (h : p ∈ i.pins) : i.mnemonic = "ATTACH" := by
  cases i with
  | attach => rfl
  | _ => exact absurd h List.not_mem_nil

/-- Settles O45: each context by `CommandEffect.writtenBy`, and each shared field by the one lemma about its writers. -/
theorem commandsWriteOnlyTheirColumn : Obligations.CommandsWriteOnlyTheirColumn := by
  intro i s t hi he
  obtain ⟨m, hm⟩ : ∃ m, i.motor? = some m :=
    (command_or_tick i).resolve_right fun ⟨now, h⟩ => hi now h
  have e := commandEffect_of_exec i m s t hm he
  have column := e.writtenBy
  refine ⟨fun k => (column k).tickOnly, e.pinAt, fun k => (column k).remaining, fun k => (column k).pos,
    fun k => (column k).mindelay, fun k => (column k).psave, fun k => (column k).intr, fun k => (column k).attached,
    fun k => (column k).binding, fun h => registryAfter_writers s i (e.registry ▸ h),
    fun h => timerAfter_writer s.timerEn i (e.timerEn ▸ h), fun p h => attach_of_mem_pins i p ?_⟩
  by_contra hp
  exact h (by rw [e.pinDirAt, decide_eq_false hp, Bool.false_or])

end Sys2Proof.Machine

/-! PROOFS. One motor tick, branch by branch (41_step_sequencer.md R132 to R143, R149). -/

namespace Sys2Proof.Machine

/-! The gate and the derived state. -/

theorem gate_iff (x : Motor) (c : Config) (now : Word) :
    x.gate c now = true ↔ x.mindelay.toNat ≤ (now - x.last).toNat % 2 ^ c.tsW := by
  rw [Motor.gate, decide_eq_true_iff, elapsed_eq]
  rfl

theorem gate_eq_false_iff (x : Motor) (c : Config) (now : Word) :
    x.gate c now = false ↔ (now - x.last).toNat % 2 ^ c.tsW < x.mindelay.toNat := by
  rw [← Bool.not_eq_true, gate_iff, not_le]

theorem seqState_forward_iff (x : Motor) :
    x.seqState = .steppingForward ↔ x.fwd = true ∨ (x.bwd = false ∧ 0 < x.remaining.toInt) := by
  unfold Motor.seqState sint32
  split_ifs with hf hb
  · exact iff_of_true rfl hf
  · exact iff_of_false nofun hf
  · exact iff_of_false nofun hf

theorem seqState_backward_iff (x : Motor) :
    x.seqState = .steppingBackward ↔ x.fwd = false ∧ (x.bwd = true ∨ x.remaining.toInt < 0) := by
  unfold Motor.seqState sint32
  split_ifs with hf hb
  · refine iff_of_false nofun fun ⟨h1, h2⟩ => ?_
    obtain h | ⟨h, h'⟩ := hf
    · simp [h1] at h
    · obtain hb | hb := h2
      · simp [h] at hb
      · omega
  · exact iff_of_true rfl ⟨by simpa using (not_or.1 hf).1, hb⟩
  · exact iff_of_false nofun fun h => hb h.2

/-- With neither flag set the sign of the count is the derived state (10_state.md R35). -/
theorem seqState_of_inactive (x : Motor) (hf : x.fwd = false) (hb : x.bwd = false) :
    (0 < x.remaining.toInt → x.seqState = .steppingForward) ∧
    (x.remaining.toInt < 0 → x.seqState = .steppingBackward) ∧
    (x.remaining = 0#32 → x.seqState = .idle) :=
  ⟨fun h => (seqState_forward_iff x).2 (.inr ⟨hb, h⟩), fun h => (seqState_backward_iff x).2 ⟨hf, .inr h⟩,
    fun h => (idleMeansNothingPendingOrActive x).2 ⟨h, hf, hb⟩⟩

theorem branch_idle_iff (x : Motor) :
    x.branch = .idle ↔ x.psave = false ∧ x.remaining = 0#32 ∧ x.fwd = false ∧ x.bwd = false := by
  constructor
  · intro hi
    by_cases hp : x.psave = true ∧ x.remaining = 0#32
    · exact absurd hi (by simp [branch_powerSaver x hp.1 hp.2])
    have hs : x.seqState = .idle := by
      cases hs : x.seqState with
      | idle => rfl
      | steppingForward =>
        exact absurd hi (by simp [branch_forward x hp ((seqState_forward_iff x).1 hs)])
      | steppingBackward =>
        obtain ⟨hf, hb⟩ := (seqState_backward_iff x).1 hs
        exact absurd hi (by simp [branch_backward x hp hf hb])
    obtain ⟨hr, hf, hb⟩ := (idleMeansNothingPendingOrActive x).1 hs
    exact ⟨by simpa [hr] using hp, hr, hf, hb⟩
  · rintro ⟨h1, h2, h3, h4⟩
    exact branch_idle x h1 h2 h3 h4

/-! The context after a motor tick, for each branch and each way it ends. -/

section
variable {x : Motor} {c : Config} {now : Word}

theorem afterTick_powerSaver (hp : x.psave = true) (hr : x.remaining = 0#32) : x.afterTick c now = x := by
  simp [Motor.afterTick, branch_powerSaver x hp hr]

theorem afterTick_of_idle (h : x.seqState = .idle) : x.afterTick c now = x := by
  obtain ⟨hr, hf, hb⟩ := (idleMeansNothingPendingOrActive x).1 h
  cases hp : x.psave with
  | true => exact afterTick_powerSaver hp hr
  | false => simp [Motor.afterTick, branch_idle x hp hr hf hb]

theorem afterTick_forward_blocked (hb : x.branch = .forward) (hg : x.gate c now = false) :
    x.afterTick c now = { x with fwd := true } := by
  simp [Motor.afterTick, hb, hg]

theorem afterTick_forward_advance (hb : x.branch = .forward) (hg : x.gate c now = true) (hi : x.fidx ≠ c.lastPlace) :
    x.afterTick c now = { x with fwd := true, last := zextLow c.tsW now, fidx := x.fidx + 1#3 } := by
  simp [Motor.afterTick, hb, hg, hi]

theorem afterTick_forward_complete (hb : x.branch = .forward) (hg : x.gate c now = true) (hi : x.fidx = c.lastPlace) :
    x.afterTick c now = (Motor.completeFwd { x with fwd := false, last := zextLow c.tsW now } c).wrapPos c := by
  simp [Motor.afterTick, hb, hg, hi]

theorem afterTick_backward_blocked (hb : x.branch = .backward) (hg : x.gate c now = false) :
    x.afterTick c now = { x with bwd := true } := by
  simp [Motor.afterTick, hb, hg]

theorem afterTick_backward_advance (hb : x.branch = .backward) (hg : x.gate c now = true) (hi : x.bidx ≠ 0#3) :
    x.afterTick c now = { x with bwd := true, last := zextLow c.tsW now, bidx := x.bidx - 1#3 } := by
  simp [Motor.afterTick, hb, hg, hi]

theorem afterTick_backward_complete (hb : x.branch = .backward) (hg : x.gate c now = true) (hi : x.bidx = 0#3) :
    x.afterTick c now = (Motor.completeBwd { x with bwd := false, last := zextLow c.tsW now } c).wrapPos c := by
  simp [Motor.afterTick, hb, hg, hi]

theorem shown_powerSaver (hb : x.branch = .powerSaver) : x.shown c now = some 0#4 := by
  simp [Motor.shown, hb]

theorem shown_forward (hb : x.branch = .forward) : x.shown c now =
    some (seqEntry c (if x.gate c now = true ∧ x.fidx ≠ c.lastPlace then x.fidx + 1#3 else x.fidx)) := by
  simp [Motor.shown, hb]

theorem shown_backward (hb : x.branch = .backward) : x.shown c now =
    some (seqEntry c (if x.gate c now = true ∧ x.bidx ≠ 0#3 then x.bidx - 1#3 else x.bidx)) := by
  simp [Motor.shown, hb]

end

/-! The pins and the frame of a motor tick. -/

theorem motorTick_drivenLevels (m : MotorId) (now : Word) (s : State) (pat : Pattern)
    (h : (s.motor m).shown s.cfg now = some pat) : DrivenLevels (s.motor m) pat s (motorTick m now s) := by
  intro p
  rw [motorTick_pinAt, h]
  exact pinAt_drive s (s.motor m) pat p

theorem motorTick_onlyMotorAndLevelsChanged (m : MotorId) (now : Word) (s : State) :
    OnlyMotorAndLevelsChanged m s (motorTick m now s) :=
  ⟨fun k hk => motorTick_motor_other m k now s hk, motorTick_registry m now s, motorTick_timerEn m now s,
    fun p => congrArg (getBit · p) (motorTick_pinDir m now s), motorTick_rsp m now s, motorTick_cfg m now s,
    motorTick_inputs m now s⟩

/-- Settles O33: the branch is the power saver's whatever the flags are; it shows the pattern 0 and keeps the context. -/
theorem powerSaverTickDrivesLow : Obligations.PowerSaverTickDrivesLow := by
  intro m now s hp hr
  refine ⟨?_, motorTick_onlyMotorAndLevelsChanged m now s, ?_⟩
  · rw [motorTick_motor_same, afterTick_powerSaver hp hr]
  · exact motorTick_drivenLevels m now s 0#4 (shown_powerSaver (branch_powerSaver _ hp hr))

/-- Settles O34: `branch_idle_iff`, and in that branch the motor tick answers its own state. -/
theorem idleTickWritesNothing : Obligations.IdleTickWritesNothing := by
  refine fun m now s => ⟨branch_idle_iff (s.motor m), fun hi => ?_⟩
  rw [motorTick, hi]

/-- Settles O35: in branch F the gate and the cursor's place choose one of three endings. -/
theorem forwardTick : Obligations.ForwardTick := by
  intro m now s hp hd
  have hb := branch_forward (s.motor m) hp hd
  have pins := fun i h => motorTick_drivenLevels m now s (seqEntry s.cfg i) ((shown_forward hb).trans h)
  rw [← gate_iff, ← gate_eq_false_iff, motorTick_motor_same]
  refine ⟨motorTick_onlyMotorAndLevelsChanged m now s, fun hg => ⟨?_, ?_⟩, fun hg hi => ⟨?_, ?_⟩, fun hg hi => ⟨?_, ?_⟩⟩
  · exact afterTick_forward_blocked hb hg
  · exact pins _ (by simp [hg])
  · exact afterTick_forward_advance hb hg hi
  · exact pins _ (by simp [hg, hi])
  · rw [afterTick_forward_complete hb hg hi]
    exact forward_completion_writes (s.motor m) s.cfg now
  · exact pins _ (by simp [hi])

/-- Settles O36: in branch B the gate and the cursor's place choose one of three endings. -/
theorem backwardTick : Obligations.BackwardTick := by
  intro m now s hp hf hd
  have hb := branch_backward (s.motor m) hp hf hd
  have pins := fun i h => motorTick_drivenLevels m now s (seqEntry s.cfg i) ((shown_backward hb).trans h)
  rw [← gate_iff, ← gate_eq_false_iff, motorTick_motor_same]
  refine ⟨motorTick_onlyMotorAndLevelsChanged m now s, fun hg => ⟨?_, ?_⟩, fun hg hi => ⟨?_, ?_⟩, fun hg hi => ⟨?_, ?_⟩⟩
  · exact afterTick_backward_blocked hb hg
  · exact pins _ (by simp [hg])
  · exact afterTick_backward_advance hb hg hi
  · exact pins _ (by simp [hg, hi])
  · rw [afterTick_backward_complete hb hg hi]
    exact backward_completion_writes (s.motor m) s.cfg now
  · exact pins _ (by simp [hi])

/-! The derived state over a motor tick (R149). -/

/-- The row of SteppingForward. -/
theorem afterTick_steppingForward (x : Motor) (c : Config) (now : Word) (h : ¬ (x.fwd = true ∧ x.bwd = true))
    (hp : ¬ (x.psave = true ∧ x.remaining = 0#32)) (hs : x.seqState = .steppingForward) :
    (x.gate c now = false ∨ x.fidx ≠ c.lastPlace → (x.afterTick c now).seqState = .steppingForward) ∧
    (x.gate c now = true → x.fidx = c.lastPlace → (x.afterTick c now).fwd = false ∧ (x.afterTick c now).bwd = false) := by
  have hd := (seqState_forward_iff x).1 hs
  have hb := branch_forward x hp hd
  refine ⟨fun he => (seqState_forward_iff _).2 (.inl ?_), fun hg hi => ?_⟩
  · cases hg : x.gate c now with
    | false => rw [afterTick_forward_blocked hb hg]
    | true => rw [afterTick_forward_advance hb hg (he.resolve_left (by simp [hg]))]
  · have hbwd : x.bwd = false := by
      obtain hf | ⟨hbwd, -⟩ := hd
      · simpa [hf] using h
      · exact hbwd
    obtain ⟨r, v, e, -⟩ := forward_completion_writes x c now
    rw [afterTick_forward_complete hb hg hi, e]
    exact ⟨rfl, hbwd⟩

/-- The row of SteppingBackward. -/
theorem afterTick_steppingBackward (x : Motor) (c : Config) (now : Word)
    (hp : ¬ (x.psave = true ∧ x.remaining = 0#32)) (hs : x.seqState = .steppingBackward) :
    (x.gate c now = false ∨ x.bidx ≠ 0#3 → (x.afterTick c now).seqState = .steppingBackward) ∧
    (x.gate c now = true → x.bidx = 0#3 → (x.afterTick c now).fwd = false ∧ (x.afterTick c now).bwd = false) := by
  obtain ⟨hf, hd⟩ := (seqState_backward_iff x).1 hs
  have hb := branch_backward x hp hf hd
  refine ⟨fun he => (seqState_backward_iff _).2 ?_, fun hg hi => ?_⟩
  · cases hg : x.gate c now with
    | false => rw [afterTick_backward_blocked hb hg]; exact ⟨hf, .inl rfl⟩
    | true => rw [afterTick_backward_advance hb hg (he.resolve_left (by simp [hg]))]; exact ⟨hf, .inl rfl⟩
  · obtain ⟨r, v, e, -⟩ := backward_completion_writes x c now
    rw [afterTick_backward_complete hb hg hi, e]
    exact ⟨hf, rfl⟩

/-- Settles O43: Idle and the power saver keep the context; the two stepping states have their rows above, and a completion
leaves no flag, so that the sign of the count decides. -/
theorem sequencerStateTransitions : Obligations.SequencerStateTransitions := by
  intro m now s h
  rw [motorTick_motor_same]
  refine ⟨fun hs => ?_, fun hp hr => ?_, fun hp => ⟨fun hs => ?_, fun hs => ?_⟩⟩
  · rw [afterTick_of_idle hs, hs]
  · rw [afterTick_powerSaver hp hr]
  · obtain ⟨stays, ends⟩ := afterTick_steppingForward (s.motor m) s.cfg now h hp hs
    exact ⟨stays, fun hg hi => seqState_of_inactive _ (ends hg hi).1 (ends hg hi).2⟩
  · obtain ⟨stays, ends⟩ := afterTick_steppingBackward (s.motor m) s.cfg now hp hs
    exact ⟨stays, fun hg hi => seqState_of_inactive _ (ends hg hi).1 (ends hg hi).2⟩

/-! A TICK, for one motor of a registry with no duplicate. -/

/-- Of a TICK a context sees its own motor tick, or nothing. -/
theorem dispatchTicks_motor_cases (now : Word) (s : State) (m : MotorId) (hn : s.registry.Nodup) :
    (dispatchTicks now s.registry s).motor m = s.motor m ∨
    (dispatchTicks now s.registry s).motor m = (s.motor m).afterTick s.cfg now := by
  by_cases hm : m ∈ s.registry
  · exact .inr (dispatchTicks_motor_present now _ s m hn hm)
  · exact .inl (dispatchTicks_motor_absent now _ s m hm)

/-- A motor tick moves at most one cursor, by one place (R142). -/
theorem afterTick_cursors (x : Motor) (c : Config) (now : Word) :
    ((x.afterTick c now).fidx = x.fidx ∧ (x.afterTick c now).bidx = x.bidx) ∨
    ((x.afterTick c now).fidx = (if x.fidx = c.lastPlace then 0#3 else x.fidx + 1#3) ∧ (x.afterTick c now).bidx = x.bidx) ∨
    ((x.afterTick c now).fidx = x.fidx ∧ (x.afterTick c now).bidx = (if x.bidx = 0#3 then c.lastPlace else x.bidx - 1#3)) := by
  obtain ⟨e, -⟩ | ⟨-, -, forward⟩ | ⟨-, -, -, backward⟩ := afterTick_cases x c now
  · exact .inl (by rw [e]; exact ⟨rfl, rfl⟩)
  · obtain ⟨-, -, e⟩ | ⟨-, -, hi, e⟩ | ⟨-, -, hi, r, v, e, -⟩ := forward <;> rw [e]
    · exact .inl ⟨rfl, rfl⟩
    · exact .inr (.inl ⟨(if_neg hi).symm, rfl⟩)
    · exact .inr (.inl ⟨(if_pos hi).symm, rfl⟩)
  · obtain ⟨-, -, e⟩ | ⟨-, -, hi, e⟩ | ⟨-, -, hi, r, v, e, -⟩ := backward <;> rw [e]
    · exact .inl ⟨rfl, rfl⟩
    · exact .inr (.inr ⟨rfl, (if_neg hi).symm⟩)
    · exact .inr (.inr ⟨rfl, (if_pos hi).symm⟩)

/-- Settles O40: the TICK's effect on the context is at most one motor tick's. -/
theorem cursorMovesAtMostOncePerTick : Obligations.CursorMovesAtMostOncePerTick := by
  intro now s m hn
  refine ⟨_, exec_tick now s, ?_⟩
  obtain e | e := dispatchTicks_motor_cases now s m hn <;> rw [e]
  · exact .inl ⟨rfl, rfl⟩
  · exact afterTick_cursors (s.motor m) s.cfg now

/-- A position moved by one step angle and corrected once is reduced modulo a turn (R141). -/
theorem Motor.Inv.completed_position_eq_emod {c : Config} {x : Motor} (h : x.Inv c) (hc : c.Legal) (z : Int) (v : Word)
    (hz : z = x.pos.toInt + x.dps.toNat ∨ z = x.pos.toInt - x.dps.toNat)
    (hv : -2 ^ (c.posW - 1) ≤ z → z < 2 ^ (c.posW - 1) →
      v.toInt = if c.fullTurn ≤ z then z - c.fullTurn else if z < 0 then z + c.fullTurn else z) :
    v.toInt = z % c.fullTurn := by
  have low : 0 ≤ x.pos.toInt := h.posLow
  have high : x.pos.toInt < c.fullTurn := h.posHigh
  have angle : x.dps.toNat ≤ c.fullTurn := h.dps_le_fullTurn hc
  have room : 2 * (c.fullTurn : Int) < 2 ^ (c.posW - 1) := by exact_mod_cast hc.turnFits
  rw [hv (by omega) (by omega)]
  exact correction_eq_mod z c.fullTurn (by omega) (by omega)

/-- A motor tick keeps count and position, or completes one step in one direction (R143). -/
theorem Motor.Inv.afterTick_count_position {c : Config} {x : Motor} (h : x.Inv c) (hc : c.Legal) (now : Word) :
    ((x.afterTick c now).remaining = x.remaining ∧ (x.afterTick c now).pos = x.pos) ∨
    (x.fidx = c.lastPlace ∧ (x.afterTick c now).fidx = 0#3 ∧
      (x.afterTick c now).remaining.toInt = (x.remaining.toInt - 1).bmod (2 ^ c.stepsW) ∧
      (x.afterTick c now).pos.toInt = (x.pos.toInt + x.dps.toNat) % c.fullTurn) ∨
    (x.bidx = 0#3 ∧ (x.afterTick c now).bidx = c.lastPlace ∧
      (x.afterTick c now).remaining.toInt = (x.remaining.toInt + 1).bmod (2 ^ c.stepsW) ∧
      (x.afterTick c now).pos.toInt = (x.pos.toInt - x.dps.toNat) % c.fullTurn) := by
  obtain ⟨e, -⟩ | ⟨-, -, forward⟩ | ⟨-, -, -, backward⟩ := afterTick_cases x c now
  · exact .inl (by rw [e]; exact ⟨rfl, rfl⟩)
  · obtain ⟨-, -, e⟩ | ⟨-, -, -, e⟩ | ⟨-, -, hi, r, v, e, hr, hv⟩ := forward <;> rw [e]
    · exact .inl ⟨rfl, rfl⟩
    · exact .inl ⟨rfl, rfl⟩
    · exact .inr (.inl ⟨hi, rfl, hr hc, h.completed_position_eq_emod hc _ v (.inl rfl) (hv hc _ rfl)⟩)
  · obtain ⟨-, -, e⟩ | ⟨-, -, -, e⟩ | ⟨-, -, hi, r, v, e, hr, hv⟩ := backward <;> rw [e]
    · exact .inl ⟨rfl, rfl⟩
    · exact .inl ⟨rfl, rfl⟩
    · exact .inr (.inr ⟨hi, rfl, hr hc, h.completed_position_eq_emod hc _ v (.inr rfl) (hv hc _ rfl)⟩)

/-- Settles O41: the TICK's effect on the context is at most one motor tick's. -/
theorem positionMovesOneStepPerCompletion : Obligations.PositionMovesOneStepPerCompletion := by
  intro now s t m h he
  cases he
  obtain e | e := dispatchTicks_motor_cases now s m h.noDuplicate <;> rw [e]
  · exact .inl ⟨rfl, rfl⟩
  · exact (h.motors m).afterTick_count_position h.legal now

end Sys2Proof.Machine

/-! PROOFS. How a motor comes to rest (41_step_sequencer.md R144, R147, R148). Two quantities decide it: the passes of the gate
that are still to come, one fewer at each pass, and the position at rest, which no TICK changes. -/

namespace Sys2Proof.Machine

/-! The passes to come and the position at rest. -/

/-- The passes of the gate until the motor rests: those that finish the sub-sequence in progress, and `SEQ_LEN` for each step
pending after it. -/
def Motor.passesToRest (x : Motor) (c : Config) : Nat :=
  if x.fwd then (c.seqLen - x.fidx.toNat) + c.seqLen * (x.remaining.toInt - 1).natAbs
  else if x.bwd then (x.bidx.toNat + 1) + c.seqLen * (x.remaining.toInt + 1).natAbs
  else c.seqLen * x.remaining.toInt.natAbs

/-- The position with the pending steps done, modulo a turn. -/
def Motor.restPos (x : Motor) (c : Config) : Int := (x.pos.toInt + x.remaining.toInt * x.dps.toNat) % c.fullTurn

/-- Nothing keeps the motor from coming to rest: the power saver holds up no sub-sequence (41_step_sequencer.md R134), and the
step in progress has room in the count, which would wrap otherwise (R137). -/
structure Motor.Unhindered (x : Motor) (c : Config) : Prop where
  notFrozen : x.psave = true → x.remaining = 0#32 → x.fwd = false ∧ x.bwd = false
  fwdRoom : x.fwd = true → -2 ^ (c.stepsW - 1) < x.remaining.toInt
  bwdRoom : x.bwd = true → x.remaining.toInt + 1 < 2 ^ (c.stepsW - 1)

section
variable {x : Motor} {c : Config}

/-- With no sub-sequence in progress nothing hinders. -/
theorem unhindered_of_inactive (hf : x.fwd = false) (hb : x.bwd = false) : x.Unhindered c :=
  ⟨fun _ _ => ⟨hf, hb⟩, fun h => by simp [hf] at h, fun h => by simp [hb] at h⟩

theorem passesToRest_of_fwd (hf : x.fwd = true) :
    x.passesToRest c = (c.seqLen - x.fidx.toNat) + c.seqLen * (x.remaining.toInt - 1).natAbs := by
  simp [Motor.passesToRest, hf]

theorem passesToRest_of_bwd (hf : x.fwd = false) (hb : x.bwd = true) :
    x.passesToRest c = (x.bidx.toNat + 1) + c.seqLen * (x.remaining.toInt + 1).natAbs := by
  simp [Motor.passesToRest, hf, hb]

theorem passesToRest_of_inactive (hf : x.fwd = false) (hb : x.bwd = false) :
    x.passesToRest c = c.seqLen * x.remaining.toInt.natAbs := by
  simp [Motor.passesToRest, hf, hb]

/-- With no forward sub-sequence in progress the forward cursor is at its start. -/
theorem Motor.Inv.fidx_at_start (h : x.Inv c) (hf : x.fwd = false) : x.fidx = 0#3 := by
  by_contra hi
  simp [h.fwdCursor hi] at hf

/-- With no backward sub-sequence in progress the backward cursor is at its start, the last place. -/
theorem Motor.Inv.bidx_at_start (h : x.Inv c) (hb : x.bwd = false) : x.bidx = c.lastPlace := by
  by_contra hi
  simp [h.bwdCursor hi] at hb

/-- A motor about to begin a forward step stands at the start of the table. -/
theorem Motor.Inv.passesToRest_of_forward (h : x.Inv c)
    (hd : x.fwd = true ∨ (x.bwd = false ∧ 0 < x.remaining.toInt)) :
    x.passesToRest c = (c.seqLen - x.fidx.toNat) + c.seqLen * (x.remaining.toInt - 1).natAbs := by
  cases hf : x.fwd with
  | true => exact passesToRest_of_fwd hf
  | false =>
    obtain ⟨hb, hr⟩ : x.bwd = false ∧ 0 < x.remaining.toInt := by simpa [hf] using hd
    have count : x.remaining.toInt.natAbs = (x.remaining.toInt - 1).natAbs + 1 := by omega
    rw [passesToRest_of_inactive hf hb, h.fidx_at_start hf, count, Nat.mul_succ, Nat.add_comm]
    rfl

/-- A motor about to begin a backward step stands at the last place of the table. -/
theorem Motor.Inv.passesToRest_of_backward (h : x.Inv c) (hc : c.Legal) (hf : x.fwd = false)
    (hd : x.bwd = true ∨ x.remaining.toInt < 0) :
    x.passesToRest c = (x.bidx.toNat + 1) + c.seqLen * (x.remaining.toInt + 1).natAbs := by
  cases hb : x.bwd with
  | true => exact passesToRest_of_bwd hf hb
  | false =>
    have hr : x.remaining.toInt < 0 := by simpa [hb] using hd
    have count : x.remaining.toInt.natAbs = (x.remaining.toInt + 1).natAbs + 1 := by omega
    rw [passesToRest_of_inactive hf hb, h.bidx_at_start hb, lastPlace_toNat c hc, count, Nat.mul_succ, Nat.add_comm]

/-- The motor is at rest at position `p`: Idle, and both cursors at their start (10_state.md R29, R35). -/
structure Motor.RestsAt (x : Motor) (c : Config) (p : Int) : Prop where
  idle : x.seqState = .idle
  remaining : x.remaining = 0#32
  fwd : x.fwd = false
  bwd : x.bwd = false
  fidx : x.fidx = 0#3
  bidx : x.bidx = c.lastPlace
  pos : x.pos.toInt = p

/-- An Idle motor rests, and where it is. -/
theorem Motor.Inv.restsAt_of_idle (h : x.Inv c) (hs : x.seqState = .idle) : x.RestsAt c (x.restPos c) := by
  obtain ⟨hr, hf, hb⟩ := (idleMeansNothingPendingOrActive x).1 hs
  have here : x.restPos c = x.pos.toInt := by
    have still : x.pos.toInt + x.remaining.toInt * x.dps.toNat = x.pos.toInt := by simp [hr]
    rw [Motor.restPos, still]
    exact Int.emod_eq_of_lt h.posLow h.posHigh
  exact ⟨hs, hr, hf, hb, h.fidx_at_start hf, h.bidx_at_start hb, here.symm⟩

/-- A motor that steps has a pass to come. -/
theorem Motor.Inv.idle_of_passesToRest_eq_zero (h : x.Inv c) (hc : c.Legal) (h0 : x.passesToRest c = 0) :
    x.seqState = .idle := by
  obtain ⟨inTable, -⟩ := h.cursorsInTable
  cases hs : x.seqState with
  | idle => rfl
  | steppingForward =>
    rw [h.passesToRest_of_forward ((seqState_forward_iff x).1 hs)] at h0
    omega
  | steppingBackward =>
    obtain ⟨hf, hd⟩ := (seqState_backward_iff x).1 hs
    rw [h.passesToRest_of_backward hc hf hd] at h0
    omega

/-! One motor tick on the way to rest. -/

/-- A count with room does not wrap. -/
theorem bmod_eq_of_fits_steps (hc : c.Legal) (z : Int) (h1 : -2 ^ (c.stepsW - 1) ≤ z) (h2 : z < 2 ^ (c.stepsW - 1)) :
    z.bmod (2 ^ c.stepsW) = z := by
  obtain ⟨hw, hw'⟩ := hc.stepsFit
  rw [← sint32_sextWrap c.stepsW hw', sint32_sextWrap_fits c.stepsW (by omega) hw' z h1 h2]

/-- `y` is on the same way to rest as `x`, `n` passes further. -/
structure Motor.Nearer (x : Motor) (c : Config) (n : Nat) (y : Motor) : Prop where
  unhindered : y.Unhindered c
  passes : n + y.passesToRest c = x.passesToRest c
  restPos : y.restPos c = x.restPos c

/-- The end of a step leaves no flag; a step done is a step no longer pending. -/
theorem nearer_of_completion {y : Motor} (d : Int) (hf : y.fwd = false) (hb : y.bwd = false)
    (hr : y.remaining.toInt = x.remaining.toInt - d) (hdps : y.dps = x.dps)
    (hp : y.pos.toInt = (x.pos.toInt + d * x.dps.toNat) % c.fullTurn)
    (hn : 1 + c.seqLen * (x.remaining.toInt - d).natAbs = x.passesToRest c) : x.Nearer c 1 y where
  unhindered := unhindered_of_inactive hf hb
  passes := by rw [passesToRest_of_inactive hf hb, hr, hn]
  restPos := by
    rw [Motor.restPos, Motor.restPos, hr, hdps, hp, Int.emod_add_emod]
    congr 1
    ring

/-- The next place of the table, from one that is not the last. -/
theorem next_cursor_toNat (hc : c.Legal) (i : Cursor) (hi : i.toNat < c.seqLen) (hl : i ≠ c.lastPlace) :
    (i + 1#3).toNat = i.toNat + 1 := by
  have h1 := lastPlace_toNat c hc
  have h2 := c.lastPlace.isLt
  have h3 : i.toNat ≠ c.lastPlace.toNat := fun e => hl (BitVec.eq_of_toNat_eq e)
  rw [BitVec.toNat_add, BitVec.toNat_ofNat]
  omega

/-- The place before, from one that is not the first. -/
theorem previous_cursor_toNat (i : Cursor) (h0 : i ≠ 0#3) : (i - 1#3).toNat + 1 = i.toNat := by
  have h1 : i.toNat ≠ 0 := fun e => h0 (BitVec.eq_of_toNat_eq e)
  rw [BitVec.toNat_sub, BitVec.toNat_ofNat]
  omega

theorem Motor.Inv.nearer_forward (h : x.Inv c) (hc : c.Legal) (hu : x.Unhindered c) (now : Word)
    (hp : ¬ (x.psave = true ∧ x.remaining = 0#32)) (hd : x.fwd = true ∨ (x.bwd = false ∧ 0 < x.remaining.toInt)) :
    x.Nearer c (if x.gate c now then 1 else 0) (x.afterTick c now) := by
  have hb := branch_forward x hp hd
  have hbwd := h.bwd_of_forward hd
  have passes := h.passesToRest_of_forward hd
  have room : -2 ^ (c.stepsW - 1) < x.remaining.toInt := by
    obtain hf | ⟨-, hr⟩ := hd
    · exact hu.fwdRoom hf
    · exact lt_of_le_of_lt (neg_nonpos.2 (by positivity)) hr
  have goesOn (l : Word) (i : Cursor) : ({ x with fwd := true, last := l, fidx := i } : Motor).Unhindered c :=
    ⟨fun h1 h2 => absurd ⟨h1, h2⟩ hp, fun _ => room, fun h' => by simp [hbwd] at h'⟩
  have toCome (l : Word) (i : Cursor) : ({ x with fwd := true, last := l, fidx := i } : Motor).passesToRest c =
      (c.seqLen - i.toNat) + c.seqLen * (x.remaining.toInt - 1).natAbs := passesToRest_of_fwd rfl
  obtain ⟨inTable, -⟩ := h.cursorsInTable
  cases hg : x.gate c now with
  | false =>
    rw [afterTick_forward_blocked hb hg]
    exact ⟨goesOn x.last x.fidx, by rw [passes, toCome]; exact Nat.zero_add _, rfl⟩
  | true =>
    rw [if_pos rfl]
    by_cases hi : x.fidx = c.lastPlace
    · have last := lastPlace_toNat c hc
      have upper : x.remaining.toInt < 2 ^ (c.stepsW - 1) := h.remainingFits.2
      obtain ⟨r, v, e, hr, hv⟩ := forward_completion_writes x c now
      rw [afterTick_forward_complete hb hg hi, e]
      refine nearer_of_completion 1 rfl hbwd ((hr hc).trans (bmod_eq_of_fits_steps hc _ (by omega) (by omega))) rfl ?_ ?_
      · rw [one_mul]
        exact h.completed_position_eq_emod hc _ v (.inl rfl) (hv hc _ rfl)
      · rw [passes, hi]
        omega
    · have next := next_cursor_toNat hc x.fidx inTable hi
      rw [afterTick_forward_advance hb hg hi]
      refine ⟨goesOn _ _, ?_, rfl⟩
      rw [passes, toCome]
      omega

theorem Motor.Inv.nearer_backward (h : x.Inv c) (hc : c.Legal) (hu : x.Unhindered c) (now : Word)
    (hp : ¬ (x.psave = true ∧ x.remaining = 0#32)) (hf : x.fwd = false) (hd : x.bwd = true ∨ x.remaining.toInt < 0) :
    x.Nearer c (if x.gate c now then 1 else 0) (x.afterTick c now) := by
  have hb := branch_backward x hp hf hd
  have passes := h.passesToRest_of_backward hc hf hd
  have room : x.remaining.toInt + 1 < 2 ^ (c.stepsW - 1) := by
    obtain hbwd | hr := hd
    · exact hu.bwdRoom hbwd
    · exact lt_of_le_of_lt hr (by positivity)
  have goesOn (l : Word) (i : Cursor) : ({ x with bwd := true, last := l, bidx := i } : Motor).Unhindered c :=
    ⟨fun h1 h2 => absurd ⟨h1, h2⟩ hp, fun h' => by simp [hf] at h', fun _ => room⟩
  have toCome (l : Word) (i : Cursor) : ({ x with bwd := true, last := l, bidx := i } : Motor).passesToRest c =
      (i.toNat + 1) + c.seqLen * (x.remaining.toInt + 1).natAbs := passesToRest_of_bwd hf rfl
  cases hg : x.gate c now with
  | false =>
    rw [afterTick_backward_blocked hb hg]
    exact ⟨goesOn x.last x.bidx, by rw [passes, toCome]; exact Nat.zero_add _, rfl⟩
  | true =>
    rw [if_pos rfl]
    by_cases hi : x.bidx = 0#3
    · have lower : -2 ^ (c.stepsW - 1) ≤ x.remaining.toInt := h.remainingFits.1
      obtain ⟨r, v, e, hr, hv⟩ := backward_completion_writes x c now
      rw [afterTick_backward_complete hb hg hi, e]
      refine nearer_of_completion (-1) hf rfl ?_ rfl ?_ ?_
      · rw [hr hc, bmod_eq_of_fits_steps hc _ (by omega) room, sub_neg_eq_add]
      · rw [neg_one_mul]
        exact h.completed_position_eq_emod hc _ v (.inr rfl) (hv hc _ rfl)
      · rw [passes, hi, sub_neg_eq_add]
        rfl
    · have previous := previous_cursor_toNat x.bidx hi
      rw [afterTick_backward_advance hb hg hi]
      refine ⟨goesOn _ _, ?_, rfl⟩
      rw [passes, toCome]
      omega

/-- A motor tick brings an unhindered motor one pass nearer to rest if it passes the gate, and changes nothing of its way else. -/
theorem Motor.Inv.nearer_afterTick (h : x.Inv c) (hc : c.Legal) (hu : x.Unhindered c) (now : Word) :
    x.Nearer c (if x.passes c now then 1 else 0) (x.afterTick c now) := by
  obtain ⟨e, hn, -⟩ | ⟨hp, hd, -⟩ | ⟨hp, hf, hd, -⟩ := afterTick_cases x c now
  · rw [e, hn]
    exact ⟨hu, Nat.zero_add _, rfl⟩
  · have e : x.passes c now = x.gate c now := by simp [Motor.passes, branch_forward x hp hd]
    rw [e]
    exact h.nearer_forward hc hu now hp hd
  · have e : x.passes c now = x.gate c now := by simp [Motor.passes, branch_backward x hp hf hd]
    rw [e]
    exact h.nearer_backward hc hu now hp hf hd

end

/-! Trains of TICKs. -/

/-- A TICK is one motor tick of each registered motor. -/
theorem State.Inv.afterTick_motor {s : State} (h : s.Inv) (m : MotorId) (hm : m ∈ s.registry) (now : Word) :
    (s.afterTick now).motor m = (s.motor m).afterTick s.cfg now := by
  rw [afterTick_eq, dispatchTicks_motor_present now _ s m h.noDuplicate hm]

/-- A registered motor that nothing hinders is at rest once it has passed the gate as often as it has to. -/
theorem State.Inv.rests {s : State} (h : s.Inv) (m : MotorId) (hm : m ∈ s.registry) (hu : (s.motor m).Unhindered s.cfg)
    (nows : List Word) (hn : s.passCount m nows = (s.motor m).passesToRest s.cfg) :
    ((s.afterTicks nows).motor m).RestsAt s.cfg ((s.motor m).restPos s.cfg) := by
  induction nows generalizing s with
  | nil => exact (h.motors m).restsAt_of_idle ((h.motors m).idle_of_passesToRest_eq_zero h.legal hn.symm)
  | cons now nows ih =>
    have nearer := (h.motors m).nearer_afterTick h.legal hu now
    have hcfg : (s.afterTick now).cfg = s.cfg := dispatchTicks_cfg now s.registry s
    have hreg : m ∈ (s.afterTick now).registry := by rwa [afterTick_eq, dispatchTicks_registry]
    rw [← h.afterTick_motor m hm now] at nearer
    have left : (s.afterTick now).passCount m nows = ((s.afterTick now).motor m).passesToRest (s.afterTick now).cfg := by
      have := nearer.passes
      rw [State.passCount] at hn
      rw [hcfg]
      omega
    have rest := ih (h.afterTick now) hreg (hcfg ▸ nearer.unhindered) left
    rwa [hcfg, nearer.restPos] at rest

/-- A command with no pin operand, for a registered motor, names only what exists (20_memory.md R69). -/
theorem State.Inv.operandsExist {s : State} (h : s.Inv) (m : MotorId) (hm : m ∈ s.registry) (i : Instr)
    (hi : i.motor? = some m) (hp : i.pins = []) : OperandsExist s.cfg i := by
  have he := h.registeredExist m hm
  simp only [hasMotor, Bool.and_eq_true, decide_eq_true_iff] at he
  constructor
  · intro k hk
    rw [hi] at hk
    cases hk
    exact he
  · simp [hp]

/-- Where such a command leaves the motor registered and unhindered, the passes that the context after it asks for bring it
to rest. -/
theorem State.Inv.rests_after_command {s u : State} (h : s.Inv) (m : MotorId) (hm : m ∈ s.registry) (i : Instr)
    (e : CommandEffect i m s u) (hi : i.motor? = some m) (hp : i.pins = []) (hr : registryAfter s i = s.registry)
    (hu : ((s.motor m).afterCommand s.cfg i).Unhindered s.cfg) (nows : List Word)
    (hn : u.passCount m nows = ((s.motor m).afterCommand s.cfg i).passesToRest s.cfg) :
    ((u.afterTicks nows).motor m).RestsAt s.cfg (((s.motor m).afterCommand s.cfg i).restPos s.cfg) := by
  have hreg : m ∈ u.registry := by rwa [e.registry, hr]
  have rest := (h.command hi (h.operandsExist m hm i hi hp) e).rests m hreg
  rw [e.cfg, e.motor_self] at rest
  exact rest hu nows hn

/-! STEP from Idle (R148). -/

/-- STEP overwrites the count of an Idle motor with any number that fits the field. -/
theorem afterRequest_of_idle {x : Motor} {c : Config} (hc : c.Legal) (hs : x.seqState = .idle) (z : Int)
    (h1 : -2 ^ (c.stepsW - 1) ≤ z) (h2 : z < 2 ^ (c.stepsW - 1)) :
    ∃ r : Word, r.toInt = z ∧ x.afterRequest c (sint32 (BitVec.ofInt 32 z)) = { x with remaining := r } := by
  obtain ⟨hw, hw'⟩ := hc.stepsFit
  obtain ⟨hr, -, -⟩ := (idleMeansNothingPendingOrActive x).1 hs
  obtain ⟨place1, place2⟩ := range_in_place c.stepsW hw' z h1 h2
  have operand : sint32 (BitVec.ofInt 32 z) = z := sint32_wrap32 z place1 place2
  refine ⟨sextWrap c.stepsW z, sint32_sextWrap_fits c.stepsW (by omega) hw' z h1 h2, ?_⟩
  rw [operand, Motor.afterRequest, if_pos ((acceptsRequest_iff x).2 (.inl hr))]

/-- The way to rest of an Idle motor after a STEP of `z`. -/
theorem wayToRest_of_request {x : Motor} {c : Config} (hc : c.Legal) (hs : x.seqState = .idle) (z : Int)
    (h1 : -2 ^ (c.stepsW - 1) ≤ z) (h2 : z < 2 ^ (c.stepsW - 1)) :
    (x.afterRequest c (sint32 (BitVec.ofInt 32 z))).Unhindered c ∧
    (x.afterRequest c (sint32 (BitVec.ofInt 32 z))).passesToRest c = c.seqLen * z.natAbs ∧
    (x.afterRequest c (sint32 (BitVec.ofInt 32 z))).restPos c = (x.pos.toInt + z * x.dps.toNat) % c.fullTurn := by
  obtain ⟨-, hf, hb⟩ := (idleMeansNothingPendingOrActive x).1 hs
  obtain ⟨r, rfl, e⟩ := afterRequest_of_idle hc hs z h1 h2
  rw [e]
  exact ⟨unhindered_of_inactive hf hb, passesToRest_of_inactive hf hb, rfl⟩

/-- A movement of `z` steps, forward or backward by its sign, takes `SEQ_LEN` passes a step and ends `z` step angles away. -/
theorem State.Inv.movement_ends {s : State} (h : s.Inv) (m : MotorId) (hm : m ∈ s.registry)
    (hs : (s.motor m).seqState = .idle) (z : Int) (h1 : -2 ^ (s.cfg.stepsW - 1) ≤ z) (h2 : z < 2 ^ (s.cfg.stepsW - 1)) :
    ∃ u, Machine.exec (.step m (BitVec.ofInt 32 z)) s = .next u ∧ ∀ nows, u.passCount m nows = s.cfg.seqLen * z.natAbs →
      ((u.afterTicks nows).motor m).RestsAt s.cfg
        (((s.motor m).pos.toInt + z * (s.motor m).dps.toNat) % s.cfg.fullTurn) := by
  obtain ⟨u, hexec, e⟩ := exec_command (.step m (BitVec.ofInt 32 z)) m s rfl trivial
  obtain ⟨hu, passes, restPos⟩ := wayToRest_of_request h.legal hs z h1 h2
  refine ⟨u, hexec, fun nows hn => ?_⟩
  rw [← restPos]
  exact h.rests_after_command m hm _ e rfl rfl rfl hu nows (hn.trans passes.symm)

/-- Settles O55: both directions are `movement_ends`, with `N` and with `-N`. -/
theorem movementEndsExactly : Obligations.MovementEndsExactly := by
  constructor
  · intro s m N h hm hs _ hN
    have low : -2 ^ (s.cfg.stepsW - 1) ≤ (N : Int) := le_trans (neg_nonpos.2 (by positivity)) (Int.natCast_nonneg N)
    obtain ⟨u, hexec, ends⟩ := h.movement_ends m hm hs N low (by exact_mod_cast hN)
    rw [BitVec.ofInt_natCast] at hexec
    refine ⟨u, hexec, fun nows hn => ?_⟩
    have rest := ends nows hn
    exact ⟨rest.remaining, rest.fwd, rest.fidx, rest.pos⟩
  · intro s m N h hm hs hpos hN
    have low : -2 ^ (s.cfg.stepsW - 1) ≤ -(N : Int) := neg_le_neg (by exact_mod_cast hN)
    have high : -(N : Int) < 2 ^ (s.cfg.stepsW - 1) := lt_of_lt_of_le (by omega : -(N : Int) < 0) (by positivity)
    obtain ⟨u, hexec, ends⟩ := h.movement_ends m hm hs (-N) low high
    refine ⟨u, hexec, fun nows hn => ?_⟩
    have rest := ends nows (by rw [hn, Int.natAbs_neg, Int.natAbs_natCast])
    refine ⟨rest.remaining, rest.bwd, rest.bidx, ?_⟩
    rw [rest.pos, neg_mul, Int.sub_eq_add_neg]

/-! STOP in mid sub-sequence (R147). -/

section
variable {x : Motor} {c : Config}

/-- With the power saver off a STOP hinders nothing: the step in progress leaves the count at 1 or -1. -/
theorem unhindered_of_stop (hc : c.Legal) (hp : x.psave = false) : ({ x with remaining := 0#32 } : Motor).Unhindered c := by
  have two : (2 : Int) ^ 1 ≤ 2 ^ (c.stepsW - 1) := pow_le_pow_right₀ (by norm_num) (by have := hc.stepsFit; omega)
  refine ⟨fun h => by simp [hp] at h, fun _ => ?_, fun _ => ?_⟩ <;> rw [BitVec.toInt_zero] <;> omega

theorem passesToRest_of_stop_fwd (hf : x.fwd = true) :
    ({ x with remaining := 0#32 } : Motor).passesToRest c = (c.seqLen - x.fidx.toNat) + c.seqLen := by
  simp [Motor.passesToRest, hf]

theorem passesToRest_of_stop_bwd (hf : x.fwd = false) (hb : x.bwd = true) :
    ({ x with remaining := 0#32 } : Motor).passesToRest c = (x.bidx.toNat + 1) + c.seqLen := by
  simp [Motor.passesToRest, hf, hb]

theorem Motor.Inv.restPos_of_stop (h : x.Inv c) : ({ x with remaining := 0#32 } : Motor).restPos c = x.pos.toInt := by
  rw [Motor.restPos, BitVec.toInt_zero, zero_mul, add_zero]
  exact Int.emod_eq_of_lt h.posLow h.posHigh

end

/-- With the power saver on and nothing pending no TICK changes the context (R134). -/
theorem afterTicks_motor_frozen (nows : List Word) (s : State) (m : MotorId) (hn : s.registry.Nodup)
    (hp : (s.motor m).psave = true) (hr : (s.motor m).remaining = 0#32) : (s.afterTicks nows).motor m = s.motor m := by
  induction nows generalizing s with
  | nil => rfl
  | cons now nows ih =>
    have same : (s.afterTick now).motor m = s.motor m := by
      rw [afterTick_eq]
      obtain e | e := dispatchTicks_motor_cases now s m hn
      · exact e
      · rw [e, afterTick_powerSaver hp hr]
    have hn' : (s.afterTick now).registry.Nodup := by rwa [afterTick_eq, dispatchTicks_registry]
    rw [State.afterTicks, ih _ hn' (same ▸ hp) (same ▸ hr), same]

/-- After a STOP with the power saver off the motor comes to rest where it was, once it has made the passes still to come. -/
theorem State.Inv.rests_after_stop {s u : State} (h : s.Inv) (m : MotorId) (hm : m ∈ s.registry)
    (e : CommandEffect (.stop m) m s u) (hp : (s.motor m).psave = false) (nows : List Word)
    (hn : u.passCount m nows = ((s.motor m).afterCommand s.cfg (.stop m)).passesToRest s.cfg) :
    ((u.afterTicks nows).motor m).remaining = 0#32 ∧ ((u.afterTicks nows).motor m).seqState = .idle ∧
      ((u.afterTicks nows).motor m).pos = (s.motor m).pos := by
  have rest := h.rests_after_command m hm _ e rfl rfl rfl (unhindered_of_stop h.legal hp) nows hn
  exact ⟨rest.remaining, rest.idle, BitVec.eq_of_toInt_eq (rest.pos.trans (h.motors m).restPos_of_stop)⟩

/-- Settles O56: after the STOP the passes to come are those of the step in progress and `SEQ_LEN` for the one opposite step;
under the power saver the context is frozen. -/
theorem stopInMidStepReturns : Obligations.StopInMidStepReturns := by
  intro s m h hm
  obtain ⟨u, hexec, e⟩ := exec_command (.stop m) m s rfl trivial
  refine ⟨u, hexec, fun hf hp nows hn => ?_, fun hb hp nows hn => ?_, fun hp nows => ?_⟩
  · exact h.rests_after_stop m hm e hp nows (hn.trans (passesToRest_of_stop_fwd hf).symm)
  · have hf : (s.motor m).fwd = false := by simpa [hb] using (h.motors m).oneDirection
    exact h.rests_after_stop m hm e hp nows (hn.trans (passesToRest_of_stop_bwd hf hb).symm)
  · refine afterTicks_motor_frozen nows u m ?_ ?_ ?_
    · rw [e.registry]
      exact h.noDuplicate
    · rw [e.motor_self]
      exact hp
    · rw [e.motor_self]
      rfl

end Sys2Proof.Machine

/-! PROOFS. The movement and position commands (42_commands.md): requests, position, stop and reads. -/

namespace Sys2Proof.Machine

/-! One context rewritten, and nothing else. -/

theorem updMotor_onlyMotorChanged (s : State) (m : MotorId) (f : Motor → Motor) : OnlyMotorChanged m s (s.updMotor m f) :=
  ⟨⟨fun k hk => motor_updMotor_other s m k f hk, rfl, rfl, fun _ => rfl, rfl, rfl, rfl⟩, fun _ => rfl⟩

/-- Settles O26: SETORG rewrites one field of one context. -/
theorem setorgZeroesPosition : Obligations.SetorgZeroesPosition := fun m s =>
  ⟨_, exec_setorg m s, motor_updMotor_same s m _, updMotor_onlyMotorChanged s m _⟩

/-! The reads (R166, R167). -/

/-- ISMOV answers by `remaining` alone. -/
theorem exec_ismov_eq_if (m : MotorId) (s : State) :
    exec (.ismov m) s = .next (s.respond (if (s.motor m).remaining = 0#32 then 0#32 else 1#32)) := by
  rw [exec_ismov, Motor.isMoving]
  by_cases h : (s.motor m).remaining = 0#32 <;> simp [h]

/-- Settles O28: each read is one `respond`, which writes the response only. -/
theorem readsAnswerAndChangeNothing : Obligations.ReadsAnswerAndChangeNothing := fun m s =>
  ⟨exec_getpos m s, exec_ismov_eq_if m s⟩

/-- Settles O27: STOP rewrites `remaining` without looking at `intr`, and ISMOV then reads that 0. -/
theorem stopCancelsPendingSteps : Obligations.StopCancelsPendingSteps := by
  intro m s
  refine ⟨_, exec_stop m s, motor_updMotor_same s m _, updMotor_onlyMotorChanged s m _, _, exec_ismov_eq_if m _, ?_⟩
  rw [respond_rsp, motor_updMotor_same, if_pos rfl]

/-! Requests (R160). -/

section
variable {m : MotorId} {s : State}

theorem requestSteps_of_accepted (h : (s.motor m).intr = true ∨ (s.motor m).remaining = 0#32) (n : Int) :
    s.requestSteps m n = s.updMotor m fun x => { x with remaining := sextWrap s.cfg.stepsW n } :=
  if_pos ((acceptsRequest_iff _).2 h.symm)

theorem requestSteps_of_dropped (h : ¬ ((s.motor m).intr = true ∨ (s.motor m).remaining = 0#32)) (n : Int) :
    s.requestSteps m n = s :=
  if_neg fun ha => h ((acceptsRequest_iff _).1 ha).symm

end

/-- Settles O24: an accepted request rewrites `remaining` with what its field keeps of the operand; a dropped one is the
identity. -/
theorem stepOverwritesOrIsDropped : Obligations.StepOverwritesOrIsDropped := by
  refine fun m n s hc => ⟨_, exec_step m n s, fun h => ?_, fun h => requestSteps_of_dropped h _⟩
  rw [requestSteps_of_accepted h]
  exact ⟨⟨_, sint32_sextWrap _ hc.stepsFit.2 _, motor_updMotor_same s m _⟩, updMotor_onlyMotorChanged s m _⟩

/-! The step count of SETPOS (R163). -/

/-- A distance between positions times an `spr` has at most `POS_W + SPR_W` bits. -/
theorem natAbs_distance_mul_lt {p q : Nat} (hp : 1 ≤ p) {g x : Int} {r : Nat} (hg : -2 ^ (p - 1) ≤ g ∧ g < 2 ^ (p - 1))
    (hx : -2 ^ (p - 1) ≤ x ∧ x < 2 ^ (p - 1)) (hr : r < 2 ^ q) : ((g - x) * r).natAbs < 2 ^ (p + q) := by
  have distance : (g - x).natAbs < 2 ^ p := by
    obtain ⟨k, rfl⟩ : ∃ k, p = k + 1 := ⟨p - 1, by omega⟩
    zify
    rw [pow_succ, abs_lt]
    rw [Nat.add_sub_cancel] at hg hx
    omega
  rw [Int.natAbs_mul, Int.natAbs_natCast, pow_add]
  exact Nat.mul_lt_mul'' distance hr

/-- A dividend below `B` times the divisor has a quotient in the range of a signed field, whose bound is `B`. -/
theorem tdiv_in_range {a : Int} {b B : Nat} (h : a.natAbs < B * b) : -(B : Int) ≤ a.tdiv b ∧ a.tdiv b < B := by
  have quotient : (a.tdiv b).natAbs < B := by
    rw [Int.natAbs_tdiv, Int.natAbs_natCast]
    exact Nat.div_lt_of_lt_mul (by rwa [Nat.mul_comm])
  omega

theorem setposSteps_eq_tdiv (c : Config) (hc : c.Legal) (target pos spr : Word) :
    setposSteps c target pos spr = ((target.toInt.bmod (2 ^ c.posW) - pos.toInt) * spr.toNat).tdiv c.turnNum := by
  rw [setposSteps, truncdiv_eq_tdiv, sint32_sextWrap _ hc.positionsFit.2]
  rfl

/-- The count fits its field for a position and an `spr` in their fields' ranges. -/
theorem setposSteps_fits (c : Config) (hc : c.Legal) (target pos spr : Word)
    (h1 : -2 ^ (c.posW - 1) ≤ pos.toInt) (h2 : pos.toInt < 2 ^ (c.posW - 1)) (hs : spr.toNat < 2 ^ c.sprW) :
    -2 ^ (c.stepsW - 1) ≤ setposSteps c target pos spr ∧ setposSteps c target pos spr < 2 ^ (c.stepsW - 1) := by
  obtain ⟨hw, hw'⟩ := hc.positionsFit
  have product := natAbs_distance_mul_lt hw (sextWrap_range c.posW hw hw' (sint32 target)) ⟨h1, h2⟩ hs
  rw [setposSteps, truncdiv_eq_tdiv]
  exact_mod_cast tdiv_in_range (product.trans_le hc.countFits)

/-- Settles O25: SETPOS is a request of `setposSteps`, which is the rounded quotient (`setposSteps_eq_tdiv`) and which the
field keeps as it is where it fits (`setposSteps_fits`). -/
theorem setposRequestsTheQuotient : Obligations.SetposRequestsTheQuotient := by
  refine fun m target s hc => ⟨_, exec_setpos m target s, fun h => ?_, fun h => requestSteps_of_dropped h _⟩
  rw [requestSteps_of_accepted h]
  refine ⟨_, _, _, rfl, setposSteps_eq_tdiv s.cfg hc target _ _, sint32_sextWrap _ hc.stepsFit.2 _, fun h1 h2 hs => ?_,
    motor_updMotor_same s m _, updMotor_onlyMotorChanged s m _⟩
  obtain ⟨low, high⟩ := setposSteps_fits s.cfg hc target _ _ h1 h2 hs
  exact sint32_sextWrap_fits _ (one_le_two.trans hc.stepsFit.1) hc.stepsFit.2 _ low high

end Sys2Proof.Machine

/-! PROOFS. The speed governor: what the gate compares, when `last` is written, and that `mindelay` keeps passes apart
(43_speed_governor.md R181 to R186). -/

namespace Sys2Proof.Machine

/-! Differences modulo `2^TS_W`. -/

/-- The low bits of a difference of words, in natural numbers. -/
theorem toNat_sub_mod_two_pow {n : Nat} (hn : n ≤ 32) (a b : Word) :
    (a - b).toNat % 2 ^ n = (a.toNat + 2 ^ 32 - b.toNat) % 2 ^ n := by
  rw [BitVec.toNat_sub, Nat.mod_mod_of_dvd _ (pow_dvd_pow 2 hn), Nat.add_comm, ← Nat.add_sub_assoc b.isLt.le]

/-- The low `n` bits of a difference do not see what a field of `n` bits drops of the earlier time. -/
theorem toNat_sub_zextLow_mod (n : Nat) (now last : Word) :
    (now - zextLow n last).toNat % 2 ^ n = (now - last).toNat % 2 ^ n := by
  obtain hn | hn := le_total n 32
  · have kept : (zextLow n last).toNat = last.toNat % 2 ^ n := uint32_zextLow n last
    have split := Nat.mod_add_div last.toNat (2 ^ n)
    have bound := last.isLt
    have dropped : now.toNat + 2 ^ 32 - last.toNat % 2 ^ n =
        now.toNat + 2 ^ 32 - last.toNat + 2 ^ n * (last.toNat / 2 ^ n) := by omega
    rw [toNat_sub_mod_two_pow hn, toNat_sub_mod_two_pow hn, kept, dropped, Nat.add_mul_mod_self_left]
  · rw [zextLow_fits n last (last.isLt.trans_le (Nat.pow_le_pow_right two_pos hn))]

/-- Settles O37: legal parameters keep times in 32 bits, so that R181's difference may be taken before its modulus. -/
theorem gateComparesModularDifference : Obligations.GateComparesModularDifference := by
  refine fun c x now hc => ⟨?_, fun h0 => ?_⟩
  · rw [gate_iff, toNat_sub_mod_two_pow hc.timesFit]
  · rw [gate_iff, h0]
    exact Nat.zero_le _

/-- Settles O23: SETSPD rewrites one field of one context with what the field keeps of the operand. -/
theorem setspdWritesThreshold : Obligations.SetspdWritesThreshold := fun m us s =>
  ⟨_, exec_setspd m us s, ⟨_, uint32_zextLow s.cfg.tsW us, motor_updMotor_same s m _⟩, updMotor_onlyMotorChanged s m _⟩

/-! One motor tick, with a pass and without one. -/

theorem gate_of_passes {x : Motor} {c : Config} {now : Word} (h : x.passes c now = true) : x.gate c now = true :=
  (Bool.and_eq_true_iff.1 h).2

/-- A pass writes `last`, whether it advances a cursor or completes a step (R183). -/
theorem afterTick_last_of_passes {x : Motor} {c : Config} {now : Word} (h : x.passes c now = true) :
    (x.afterTick c now).last = zextLow c.tsW now := by
  have ends := afterTick_cases x c now
  rw [h] at ends
  obtain ⟨-, ⟨⟩, -⟩ | ⟨-, -, forward⟩ | ⟨-, -, -, backward⟩ := ends
  · obtain ⟨-, ⟨⟩, -⟩ | ⟨-, -, -, advance⟩ | ⟨-, -, -, r, v, complete, -⟩ := forward
    · rw [advance]
    · rw [complete]
  · obtain ⟨-, ⟨⟩, -⟩ | ⟨-, -, -, advance⟩ | ⟨-, -, -, r, v, complete, -⟩ := backward
    · rw [advance]
    · rw [complete]

/-- `y` is `x` but for the two active flags. -/
def Motor.SameButFlags (x y : Motor) : Prop := ∃ f b, y = { x with fwd := f, bwd := b }

theorem Motor.SameButFlags.refl (x : Motor) : x.SameButFlags x := ⟨x.fwd, x.bwd, rfl⟩

theorem Motor.SameButFlags.trans {x y z : Motor} (h : x.SameButFlags y) (h' : y.SameButFlags z) : x.SameButFlags z := by
  obtain ⟨f, b, rfl⟩ := h
  obtain ⟨f', b', rfl⟩ := h'
  exact ⟨f', b', rfl⟩

theorem Motor.SameButFlags.mindelay_last {x y : Motor} (h : x.SameButFlags y) : y.mindelay = x.mindelay ∧ y.last = x.last := by
  obtain ⟨f, b, rfl⟩ := h
  exact ⟨rfl, rfl⟩

/-- Without a pass a motor tick at most sets the active flag of its branch (R182). -/
theorem afterTick_sameButFlags {x : Motor} {c : Config} {now : Word} (h : x.passes c now = false) :
    x.SameButFlags (x.afterTick c now) := by
  have ends := afterTick_cases x c now
  rw [h] at ends
  obtain ⟨same, -⟩ | ⟨-, -, forward⟩ | ⟨-, -, -, backward⟩ := ends
  · rw [same]
    exact .refl x
  · obtain ⟨-, -, blocked⟩ | ⟨-, ⟨⟩, -⟩ | ⟨-, ⟨⟩, -⟩ := forward
    exact ⟨true, x.bwd, blocked⟩
  · obtain ⟨-, -, blocked⟩ | ⟨-, ⟨⟩, -⟩ | ⟨-, ⟨⟩, -⟩ := backward
    exact ⟨x.fwd, true, blocked⟩

/-! TICKs without a pass. -/

/-- In a TICK in which the motor is not registered or does not pass its context keeps all but the active flags. -/
theorem afterTick_motor_sameButFlags (now : Word) (s : State) (m : MotorId) (hn : s.registry.Nodup)
    (h : ¬ (m ∈ s.registry ∧ (s.motor m).passes s.cfg now = true)) :
    (s.motor m).SameButFlags ((s.afterTick now).motor m) := by
  rw [afterTick_eq]
  by_cases hm : m ∈ s.registry
  · rw [dispatchTicks_motor_present now _ s m hn hm]
    exact afterTick_sameButFlags (Bool.eq_false_iff.2 fun hp => h ⟨hm, hp⟩)
  · rw [dispatchTicks_motor_absent now _ s m hm]
    exact .refl _

/-- A train of TICKs in which the motor never passes keeps all of its context but the active flags. -/
theorem afterTicks_motor_sameButFlags (nows : List Word) (s : State) (m : MotorId) (hn : s.registry.Nodup)
    (h : s.passCount m nows = 0) : (s.motor m).SameButFlags ((s.afterTicks nows).motor m) := by
  induction nows generalizing s with
  | nil => exact .refl _
  | cons now nows ih =>
    obtain ⟨first, rest⟩ := Nat.add_eq_zero_iff.1 h
    have blocked : ¬ (s.motor m).passes s.cfg now = true := fun hp => absurd ((if_pos hp).symm.trans first) one_ne_zero
    have hn' : (s.afterTick now).registry.Nodup := by rwa [afterTick_eq, dispatchTicks_registry]
    exact (afterTick_motor_sameButFlags now s m hn fun hp => blocked hp.2).trans (ih _ hn' rest)

/-! When `last` is written. -/

/-- No command is in the writer column of `last` (10_state.md R21). -/
theorem CommandEffect.last {i : Instr} {m : MotorId} {s t : State} (e : CommandEffect i m s t) (k : MotorId) :
    (t.motor k).last = (s.motor k).last := by
  obtain ⟨-, -, -, -, last⟩ := (e.writtenBy k).tickOnly
  exact last

/-- Settles O38: a pass writes `last`, a TICK without one writes flags only, and no command has `last` in its column. -/
theorem lastIsWrittenAtEveryPassOnly : Obligations.LastIsWrittenAtEveryPassOnly := by
  refine ⟨fun now s t m hn he => ?_, fun i s t m hi he => ?_⟩
  · cases he
    refine ⟨fun hm hp => ?_, fun h => ?_⟩
    · rw [dispatchTicks_motor_present now _ s m hn hm, afterTick_last_of_passes hp]
    · obtain ⟨f, b, e⟩ := afterTick_motor_sameButFlags now s m hn h
      rw [afterTick_eq] at e
      rw [e]
      exact ⟨rfl, rfl, rfl, rfl, rfl⟩
  · obtain ⟨k, hk⟩ := (command_or_tick i).resolve_right fun ⟨now, h⟩ => hi now h
    exact (commandEffect_of_exec i k s t hk he).last m

/-- Settles O39: the first pass leaves its `now` in `last` and nothing writes `last` or `mindelay` up to the second one, whose
gate compares just their difference. -/
theorem passesAreMindelayApart : Obligations.PassesAreMindelayApart := by
  intro s m now1 now2 nows hn hm h1 quiet h2
  have first : (s.afterTick now1).motor m = (s.motor m).afterTick s.cfg now1 := by
    rw [afterTick_eq, dispatchTicks_motor_present now1 _ s m hn hm]
  have threshold : ((s.afterTick now1).motor m).mindelay = (s.motor m).mindelay := by
    obtain ⟨-, -, -, -, -, -, -, hd, -, -⟩ := afterTick_keeps (s.motor m) s.cfg now1
    rw [first, hd]
  have written : ((s.afterTick now1).motor m).last = zextLow s.cfg.tsW now1 := by
    rw [first, afterTick_last_of_passes h1]
  have hn' : (s.afterTick now1).registry.Nodup := by rwa [afterTick_eq, dispatchTicks_registry]
  have second := (gate_iff _ _ _).1 (gate_of_passes h2)
  obtain ⟨threshold', written'⟩ := (afterTicks_motor_sameButFlags nows _ m hn' quiet).mindelay_last
  rwa [threshold', threshold, written', written, toNat_sub_zextLow_mod] at second

end Sys2Proof.Machine

/-! PROOFS. The mode flags (44_mode_flags.md R190, R191). -/

namespace Sys2Proof.Machine

/-- Settles O22: each of the two commands rewrites one field of one context. -/
theorem modeCommandsWriteTheirFlag : Obligations.ModeCommandsWriteTheirFlag := by
  intro m en s
  constructor
  · exact ⟨_, exec_psave m en s, motor_updMotor_same s m _, updMotor_onlyMotorChanged s m _⟩
  · exact ⟨_, exec_intr m en s, motor_updMotor_same s m _, updMotor_onlyMotorChanged s m _⟩

end Sys2Proof.Machine

/-! PROOFS. What no event does (60_exceptions.md): fault or stop (R200), and what no TICK writes (R211). -/

namespace Sys2Proof.Machine

/-! Every operation completes. -/

/-- The operand check of `exec` looks at the `spr` of an ATTACH alone. -/
theorem commandAccepted_iff (c : Config) (i : Instr) :
    CommandAccepted c i ↔ ∀ m spr p1 p2 p3 p4, i = .attach m spr p1 p2 p3 p4 → AttachAccepts c spr := by
  cases i with
  | attach m spr p1 p2 p3 p4 =>
    constructor
    · intro h _ _ _ _ _ _ e
      cases e
      exact h
    · intro h
      exact h m spr p1 p2 p3 p4 rfl
  | _ => simp [CommandAccepted]

/-- Settles O15: the operand check of ATTACH is the one way not to go on. -/
theorem everyLegalOperationCompletes : Obligations.EveryLegalOperationCompletes :=
  ⟨fun i s h => exec_goes_on i s ((commandAccepted_iff s.cfg i).2 h), exec_attach_refused⟩

/-! Runs. -/

/-- No clock of the list presents an ATTACH that is refused: each command that is presented, and not hidden by a reset,
passes the operand check. -/
def ClocksAccepted (cfg : Config) (cs : List PortIn) : Prop :=
  ∀ c ∈ cs, c.rst = false → c.cmdValid = true → ∀ i, decodeCommand c.cmdWord = .ok i → CommandAccepted cfg i

/-- The command port goes on where the command that it presents, if any, passes the operand check. -/
theorem runCommandPort_goes_on (c : PortIn) (s : State)
    (h : c.cmdValid = true → ∀ i, decodeCommand c.cmdWord = .ok i → CommandAccepted s.cfg i) :
    ∃ t, runCommandPort c s = .next t := by
  obtain ⟨-, e⟩ | ⟨hv, i, hd, -, e⟩ := runCommandPort_cases c s
  · exact ⟨s, e⟩
  · rw [e]
    exact exec_goes_on i s (h hv i hd)

/-- A step goes on where the first clock of the list, if any, is accepted. -/
theorem step_goes_on (s : State) (h : ClocksAccepted s.cfg s.inputs) : ∃ t, step s = .next t := by
  cases hi : s.inputs with
  | nil => exact ⟨_, step_idle s hi⟩
  | cons c cs =>
    cases hr : c.rst with
    | true => exact ⟨_, by rw [step_clock s c cs hi, if_pos hr]⟩
    | false =>
      rw [step_eventClock s c cs hi hr]
      apply runCommandPort_goes_on
      rw [tickPart_cfg]
      exact h c (by simp [hi]) hr

/-- A step takes a clock off the list and keeps the parameters, reset or not, so the clocks left stay accepted. -/
theorem step_keeps_clocksAccepted (s t : State) (ht : step s = .next t) (h : ClocksAccepted s.cfg s.inputs) :
    ClocksAccepted t.cfg t.inputs := by
  rw [step_cfg s t ht, step_inputs s t ht]
  exact fun c hc => h c (List.mem_of_mem_tail hc)

theorem safeRun_of_clocksAccepted (k : Nat) (s : State) (h : ClocksAccepted s.cfg s.inputs) : SafeRun k s := by
  induction k generalizing s with
  | zero => trivial
  | succ k ih =>
    obtain ⟨t, ht⟩ := step_goes_on s h
    exact ⟨t, ht, ih t (step_keeps_clocksAccepted s t ht h)⟩

/-- Settles O16: accepted clocks make one step go on and stay accepted over it. -/
theorem legalRunsAreSafe : Obligations.LegalRunsAreSafe := by
  intro k s h
  apply safeRun_of_clocksAccepted
  intro c hc hr hv i hd
  refine (commandAccepted_iff s.cfg i).2 fun m spr p1 p2 p3 p4 e => ?_
  exact h c hc hr hv m spr p1 p2 p3 p4 (hd.trans (congrArg _ e))

/-! What a TICK leaves alone. -/

/-- Settles O44: a TICK is the dispatch over the registry, whose laws say what it keeps of each context and of the pins. -/
theorem tickWritesOnlyItsColumn : Obligations.TickWritesOnlyItsColumn := by
  intro now s
  refine ⟨_, exec_tick now s, fun m => ?_, fun p => ?_, dispatchTicks_timerEn now _ s, dispatchTicks_registry now _ s,
    dispatchTicks_rsp now _ s, dispatchTicks_cfg now _ s, dispatchTicks_inputs now _ s,
    dispatchTicks_pinAt_other now s.registry s⟩
  · obtain ⟨pin1, pin2, pin3, pin4, spr, dps, attached, mindelay, psave, intr⟩ := dispatchTicks_keeps now s.registry s m
    exact ⟨mindelay, psave, intr, pin1, pin2, pin3, pin4, spr, dps, attached⟩
  · exact congrArg (getBit · p) (dispatchTicks_pinDir now s.registry s)

end Sys2Proof.Machine

/-! PROOFS. Reset (70_reset_and_hazards.md R230, R231): the state that a reset clock leaves, and the invariant right after
reset. -/

namespace Sys2Proof.Machine

theorem getBit_zero (p : PinId) : getBit 0#64 p = false := BitVec.getLsbD_zero

/-- After reset no direction is active and nothing remains, which is Idle (R231, R35). -/
theorem seqState_reset (cfg : Config) : (Motor.reset cfg).seqState = .idle :=
  (seqState_of_inactive (Motor.reset cfg) rfl rfl).2.2 rfl

/-- R231 for the state that a reset clock leaves: every context is `Motor.reset`, every shared field has its own law. -/
theorem takeReset_holdsResetValues (s : State) : HoldsResetValues s.cfg s.takeReset where
  fidx m := congrArg Motor.fidx (takeReset_motor s m)
  bidx m := congrArg Motor.bidx (takeReset_motor s m)
  remaining m := congrArg Motor.remaining (takeReset_motor s m)
  pos m := congrArg Motor.pos (takeReset_motor s m)
  flags m := ⟨congrArg Motor.fwd (takeReset_motor s m), congrArg Motor.bwd (takeReset_motor s m)⟩
  last m := congrArg Motor.last (takeReset_motor s m)
  pins m := ⟨congrArg Motor.pin1 (takeReset_motor s m), congrArg Motor.pin2 (takeReset_motor s m),
    congrArg Motor.pin3 (takeReset_motor s m), congrArg Motor.pin4 (takeReset_motor s m)⟩
  spr m := congrArg Motor.spr (takeReset_motor s m)
  dps m := congrArg Motor.dps (takeReset_motor s m)
  attached m := congrArg Motor.attached (takeReset_motor s m)
  mindelay m := congrArg Motor.mindelay (takeReset_motor s m)
  psave m := congrArg Motor.psave (takeReset_motor s m)
  intr m := congrArg Motor.intr (takeReset_motor s m)
  registry := takeReset_registry s
  regCount := by simp [State.regCount]
  regSlots i := by simp [State.regSlot]
  timerEn := takeReset_timerEn s
  pinLow := getBit_zero
  pinDirInput := getBit_zero
  rspValid := by simp [State.ports]
  idle m := by rw [takeReset_motor, seqState_reset]

/-- Where no clock is to come, a reset clock leaves the state right after reset. -/
theorem takeReset_resetWith (cfg : Config) : (State.resetWith cfg).takeReset = State.resetWith cfg := rfl

theorem step_resetClock (s : State) (c : PortIn) (cs : List PortIn) (h : s.inputs = c :: cs) (hr : c.rst = true) :
    step s = .next ({ s with inputs := cs } : State).takeReset := by
  rw [step_clock s c cs h, if_pos hr]

/-- Settles O11: a reset clock looks at no event, and the state that it leaves is `takeReset`'s. -/
theorem resetClockPutsResetValues : Obligations.ResetClockPutsResetValues := fun s c cs h hr =>
  ⟨_, step_resetClock s c cs h hr, takeReset_holdsResetValues { s with inputs := cs }⟩

/-- Settles O12: the state right after reset is what a reset clock makes of it, and `State.reset` is it by definition. -/
theorem stateAfterResetHoldsResetValues : Obligations.StateAfterResetHoldsResetValues := by
  refine ⟨fun cfg => ?_, rfl⟩
  rw [← takeReset_resetWith cfg]
  exact takeReset_holdsResetValues (State.resetWith cfg)

/-- Settles O53: every context at its reset values meets the invariant, and the empty registry lists no motor. -/
theorem invariantHoldsAtReset : Obligations.InvariantHoldsAtReset := State.Inv.reset

end Sys2Proof.Machine
